-- ==== Sys2Proof/Word.lean ====
section
/-! DEFINITION. The plain value types of the engine: 64-bit register values, 4-bit register names, the 16-bit header
words of the serialised form, and trace lines. Nothing here computes. -/

namespace Sys2Proof

/-- A register value or a program counter: 64 bits (rules R9, R20, R27). Read signed with `BitVec.toInt` (the spec's
`s64`) and unsigned with `BitVec.toNat` (the spec's `u64`), rule R11. -/
abbrev Word := BitVec 64

/-- A register name: a 4-bit value, each of its 16 values naming one of r0 to r15 (rules R22, R81, R84). -/
abbrev Reg := BitVec 4

/-- One 16-bit word of the serialised form of an instruction (rule R88). -/
abbrev HalfWord := BitVec 16

/-- One line of the output trace (rule R36; decision D17: printable ASCII, no line terminator; log entry 11). -/
abbrev Line := String

end Sys2Proof
end

