-- ==== Sys2Proof/Config.lean ====
section
/-! DEFINITION. The parameters of the engine, each fixed by rule R9. The trace's capacity and the nesting depth of
`write` literals are unbounded (R9, D17, D22), so they need no constant. The spec leaves no value open (file 93 decides
every item it lists), so this hardware has no free value. -/

namespace Sys2Proof.Config

/-- NREGS, rule R9. -/
abbrev numRegs : Nat := 16

/-- MEMSLOTS, rule R9: the instruction memory has slots 0 to 1023 (rule R60). -/
abbrev memSlots : Nat := 1024

/-- LINK, rule R9: `j` writes its return address into r15. -/
abbrev linkReg : Reg := 15

end Sys2Proof.Config
end

