-- ==== Sys2Proof/Syntax.lean ====
section
/-! DEFINITION. The instruction values of rule R81, one constructor per row of spec/opcode_table.json. They are also
what a memory slot holds (rule R61): code and data are the same values. -/

namespace Sys2Proof

/-- The closed instruction type of rule R81. A constructor bears its mnemonic; operands stand in the order of the
variant's operand list. -/
inductive Instr where
  /-- NoOp, rule R120. -/
  | nop
  /-- Move: destination and a full 64-bit immediate (rules R85, R121). -/
  | mov (rd : Reg) (imm : Word)
  /-- Add, rule R122. -/
  | add (rd ra rb : Reg)
  /-- Sub, rule R123. -/
  | sub (rd ra rb : Reg)
  /-- Mul, rule R124. -/
  | mul (rd ra rb : Reg)
  /-- Div, rule R125. -/
  | div (rd ra rb : Reg)
  /-- Print, rule R140. -/
  | print
  /-- PrintRegisters, rule R141. -/
  | printr
  /-- Copy: both registers hold addresses, destination first (rule R150). -/
  | copy (rd rs : Reg)
  /-- BranchEqual, rule R160. -/
  | beq (ra rb rt : Reg)
  /-- BranchNotEqual, rule R161. -/
  | bne (ra rb rt : Reg)
  /-- Jump, rule R162. -/
  | j (rt : Reg)
  /-- RelativeJump, rule R163. -/
  | rj (rt : Reg)
  /-- Write: the register holds the address, `ins` is the embedded literal (rules R86, R151). -/
  | write (rd : Reg) (ins : Instr)
  /-- Halt, rule R164. -/
  | halt
  deriving DecidableEq, Repr

end Sys2Proof
end

