-- ==== Sys2Proof/WellFormed.lean ====
section
/-! DEFINITION. The contract checks of rule R200 on what the producer of a program hands over. Every value of `Instr` is
a valid instruction (rules R91, R93), so an instruction value itself needs no check: an out-of-range register cannot be
written down. What can be ill-formed is a register identifier still given as a number, and a program that is too long. -/

namespace Sys2Proof

/-- The register an identifier names, or none where it is "outside 0..15" (rules R22, R200; example E2). -/
def regOfId? (n : Nat) : Option Reg :=
  if n < Config.numRegs then some (BitVec.ofNat 4 n) else none

/-- A program fits the memory: at most 1024 instruction values (rules R10, R41, R200). -/
def programFits (p : List Instr) : Bool :=
  decide (p.length ≤ Config.memSlots)

end Sys2Proof
end

