-- ==== Sys2Proof/Decode.lean ====
section
/-! DEFINITION. The serialised form of instructions (rules R88 to R92, the spec's decision D2): the decoder, total on
any list of 16-bit words and rejecting by name, and the encoder beside it. The form has no byte order (rule R61), so its
unit is the 16-bit word, the header first (log entry 3). A running engine fetches instruction values, not words: words
occur at LOAD only. -/

namespace Sys2Proof

/-- Why a list of words spells no instruction (rule R92, decision D24). -/
inductive DecodeError where
  /-- The words end before the instruction does. -/
  | truncated
  /-- TAG = 15. -/
  | reservedTag (w : HalfWord)
  /-- A field that rule R89 marks 0 is not zero. -/
  | unusedFieldNotZero (w : HalfWord)
  deriving DecidableEq, Repr

/-! ### Fields of the header word -/

/-- TAG = header[15:12], rule R88. -/
def tagField (w : HalfWord) : BitVec 4 := w.extractLsb' 12 4

/-- F1 = header[11:8], rule R88. -/
def field1 (w : HalfWord) : Reg := w.extractLsb' 8 4

/-- F2 = header[7:4], rule R88. -/
def field2 (w : HalfWord) : Reg := w.extractLsb' 4 4

/-- F3 = header[3:0], rule R88. -/
def field3 (w : HalfWord) : Reg := w.extractLsb' 0 4

/-- The header word with the given fields, TAG highest (rule R88). -/
def headerWord (tag f1 f2 f3 : BitVec 4) : HalfWord := tag ++ f1 ++ f2 ++ f3

/-- The 64-bit payload of `mov` from its four words, the most significant first (rule R88 and the vectors of file 95;
log entry 3). -/
def immOfWords (w3 w2 w1 w0 : HalfWord) : Word := w3 ++ w2 ++ w1 ++ w0

/-- The four payload words of a `mov` immediate, the most significant first. -/
def immWords (imm : Word) : List HalfWord :=
  [imm.extractLsb' 48 16, imm.extractLsb' 32 16, imm.extractLsb' 16 16, imm.extractLsb' 0 16]

/-! ### Decoding -/

/-- What a header word says: a whole instruction, or the operands it holds and the payload it needs (rule R88). -/
inductive HeaderMeaning where
  /-- The instruction has no payload. -/
  | whole (i : Instr)
  /-- A `mov`: four payload words follow. -/
  | movTo (rd : Reg)
  /-- A `write`: the serialised embedded instruction follows. -/
  | writeTo (rd : Reg)
  deriving DecidableEq, Repr

/-- Accept a header only where the fields marked 0 in rule R89 are zero (rule R90). -/
def requireZero (w : HalfWord) (unused : List (BitVec 4)) (m : HeaderMeaning) : Except DecodeError HeaderMeaning :=
  if unused.all (· == 0) then .ok m else .error (.unusedFieldNotZero w)

/-- Rules R89 and R90: TAG selects the variant, F1 to F3 are its register operands in order. -/
def decodeHeader (w : HalfWord) : Except DecodeError HeaderMeaning :=
  let f1 := field1 w
  let f2 := field2 w
  let f3 := field3 w
  match (tagField w).toNat with
  | 0 => requireZero w [f1, f2, f3] (.whole .nop)
  | 1 => requireZero w [f2, f3] (.movTo f1)
  | 2 => requireZero w [] (.whole (.add f1 f2 f3))
  | 3 => requireZero w [] (.whole (.sub f1 f2 f3))
  | 4 => requireZero w [] (.whole (.mul f1 f2 f3))
  | 5 => requireZero w [] (.whole (.div f1 f2 f3))
  | 6 => requireZero w [f1, f2, f3] (.whole .print)
  | 7 => requireZero w [f1, f2, f3] (.whole .printr)
  | 8 => requireZero w [f3] (.whole (.copy f1 f2))
  | 9 => requireZero w [] (.whole (.beq f1 f2 f3))
  | 10 => requireZero w [] (.whole (.bne f1 f2 f3))
  | 11 => requireZero w [f2, f3] (.whole (.j f1))
  | 12 => requireZero w [f2, f3] (.whole (.rj f1))
  | 13 => requireZero w [f2, f3] (.writeTo f1)
  | 14 => requireZero w [f1, f2, f3] (.whole .halt)
  | _ => .error (.reservedTag w)

/-- The first instruction that a list of words spells and the words after it, or why there is none (rules R88 to R92).
The embedded instruction of a `write` is decoded in turn, to any depth. -/
def decode : List HalfWord → Except DecodeError (Instr × List HalfWord)
  | [] => .error .truncated
  | w :: ws =>
    match decodeHeader w with
    | .error e => .error e
    | .ok (.whole i) => .ok (i, ws)
    | .ok (.movTo rd) =>
      match ws with
      | w3 :: w2 :: w1 :: w0 :: rest => .ok (.mov rd (immOfWords w3 w2 w1 w0), rest)
      | _ => .error .truncated
    | .ok (.writeTo rd) =>
      match decode ws with
      | .ok (ins, rest) => .ok (.write rd ins, rest)
      | .error e => .error e

/-- The instructions that a list of words spells one after another, at most `fuel` of them (log entry 14). -/
def decodeUpTo : Nat → List HalfWord → Except DecodeError (List Instr)
  | _, [] => .ok []
  | 0, _ :: _ => .error .truncated
  | fuel + 1, w :: ws =>
    match decode (w :: ws) with
    | .error e => .error e
    | .ok (i, rest) =>
      match decodeUpTo fuel rest with
      | .error e => .error e
      | .ok p => .ok (i :: p)

/-- A serialised program: each instruction takes at least one word, so the number of words bounds their number. -/
def decodeProgram (ws : List HalfWord) : Except DecodeError (List Instr) :=
  decodeUpTo ws.length ws

/-! ### Encoding -/

/-- The header word of an instruction, row by row from rule R89. -/
def headerOf : Instr → HalfWord
  | .nop => headerWord 0 0 0 0
  | .mov rd _ => headerWord 1 rd 0 0
  | .add rd ra rb => headerWord 2 rd ra rb
  | .sub rd ra rb => headerWord 3 rd ra rb
  | .mul rd ra rb => headerWord 4 rd ra rb
  | .div rd ra rb => headerWord 5 rd ra rb
  | .print => headerWord 6 0 0 0
  | .printr => headerWord 7 0 0 0
  | .copy rd rs => headerWord 8 rd rs 0
  | .beq ra rb rt => headerWord 9 ra rb rt
  | .bne ra rb rt => headerWord 10 ra rb rt
  | .j rt => headerWord 11 rt 0 0
  | .rj rt => headerWord 12 rt 0 0
  | .write rd _ => headerWord 13 rd 0 0
  | .halt => headerWord 14 0 0 0

/-- The serialised form of an instruction (rule R88): its header, then its payload if it has one. -/
def encode : Instr → List HalfWord
  | .nop => [headerOf .nop]
  | .mov rd imm => headerOf (.mov rd imm) :: immWords imm
  | .add rd ra rb => [headerOf (.add rd ra rb)]
  | .sub rd ra rb => [headerOf (.sub rd ra rb)]
  | .mul rd ra rb => [headerOf (.mul rd ra rb)]
  | .div rd ra rb => [headerOf (.div rd ra rb)]
  | .print => [headerOf .print]
  | .printr => [headerOf .printr]
  | .copy rd rs => [headerOf (.copy rd rs)]
  | .beq ra rb rt => [headerOf (.beq ra rb rt)]
  | .bne ra rb rt => [headerOf (.bne ra rb rt)]
  | .j rt => [headerOf (.j rt)]
  | .rj rt => [headerOf (.rj rt)]
  | .write rd ins => headerOf (.write rd ins) :: encode ins
  | .halt => [headerOf .halt]

/-- The serialised form of a program: its instructions one after another (log entry 14). -/
def encodeProgram (p : List Instr) : List HalfWord :=
  p.flatMap encode

/-! ### The opcode table -/

/-- One row of spec/opcode_table.json: the header words it stands for are those that agree with `pattern` under
`mask` (the table's `match` and `mask`). -/
structure OpcodeRow where
  mnemonic : String
  pattern : HalfWord
  mask : HalfWord
  deriving DecidableEq, Repr

/-- The row that an instruction belongs to. -/
def opcodeRowOf : Instr → OpcodeRow
  | .nop => ⟨"nop", 0x0000, 0xffff⟩
  | .mov _ _ => ⟨"mov", 0x1000, 0xf0ff⟩
  | .add _ _ _ => ⟨"add", 0x2000, 0xf000⟩
  | .sub _ _ _ => ⟨"sub", 0x3000, 0xf000⟩
  | .mul _ _ _ => ⟨"mul", 0x4000, 0xf000⟩
  | .div _ _ _ => ⟨"div", 0x5000, 0xf000⟩
  | .print => ⟨"print", 0x6000, 0xffff⟩
  | .printr => ⟨"printr", 0x7000, 0xffff⟩
  | .copy _ _ => ⟨"copy", 0x8000, 0xf00f⟩
  | .beq _ _ _ => ⟨"beq", 0x9000, 0xf000⟩
  | .bne _ _ _ => ⟨"bne", 0xa000, 0xf000⟩
  | .j _ => ⟨"j", 0xb000, 0xf0ff⟩
  | .rj _ => ⟨"rj", 0xc000, 0xf0ff⟩
  | .write _ _ => ⟨"write", 0xd000, 0xf0ff⟩
  | .halt => ⟨"halt", 0xe000, 0xffff⟩

/-- The rows of the table, in its order. -/
def opcodeRows : List OpcodeRow :=
  [.nop, .mov 0 0, .add 0 0 0, .sub 0 0 0, .mul 0 0 0, .div 0 0 0, .print, .printr, .copy 0 0, .beq 0 0 0, .bne 0 0 0,
    .j 0, .rj 0, .write 0 .nop, .halt].map opcodeRowOf

/-- A header word belongs to a row. -/
def OpcodeRow.covers (row : OpcodeRow) (w : HalfWord) : Bool :=
  (w &&& row.mask) == row.pattern

/-! ### The host's view of a table word -/

/-- The 16-bit words of an instruction whose bits are `w`, bit 0 the least significant bit of the first word, with
every bit from `nbits` on zero. After them stand four zero words, the most that an instruction can still need there: a
`mov` needs four payload words, a `write` needs one and reads `nop` from it. -/
def tableWords (nbits w : Nat) : List HalfWord :=
  (List.range ((nbits + 15) / 16)).map (fun k => BitVec.ofNat 16 (w % 2 ^ nbits / 2 ^ (16 * k))) ++ List.replicate 4 0

/-- The instruction the decoder reads from a table word. -/
def decodeTableWord (nbits w : Nat) : Option Instr :=
  match decode (tableWords nbits w) with
  | .ok (i, _) => some i
  | .error _ => none

end Sys2Proof
end

