-- ==== Sys2Proof/Machine/State.lean ====
section
/-! DEFINITION. The whole state of one engine instance, exactly the record of file 10: registers, program counter,
instruction memory, trace and STATUS. "Nothing else is state" (rule R37). Also the reasons a step can stop and the state
after reset. -/

namespace Sys2Proof.Machine

/-- Instruction memory: the slots that do not hold `nop`, as pairs of slot address and instruction value, addresses
strictly rising. The unit of memory is the slot (rule R61); code and data share it (rules R35, R60). `Memory.wf` is the
canonical form. Log entry 1. -/
abbrev Memory := List (Nat × Instr)

/-- The STATUS register (rule R31): the engine's three states, the last with its message MSG. -/
inductive Status where
  | running
  | haltedNormally
  | haltedOnError (msg : Line)
  deriving DecidableEq, Repr

/-- The runtime faults, every one of them, with the information each records (rule R181). They are not stops of the
model: raising one leads to a next state in which STATUS is HaltedOnError (rule R183). -/
inductive RuntimeFault where
  /-- Code 1, raised by the fetch guard of a step (rule R47). -/
  | pcOutOfBounds (pc : Word)
  /-- Code 2, raised by `copy` (rule R150). -/
  | copyFromOutOfBounds (src : Word)
  /-- Code 3, raised by `copy` (rule R150). -/
  | copyToOutOfBounds (dst : Word)
  /-- Code 4, raised by `write` (rule R151). -/
  | writeOutOfBounds (dst : Word)
  /-- Code 5, raised by `div` (rule R125): its address and its disassembly. -/
  | divByZero (pc : Word) (text : Line)
  /-- Code 6, raised by the host's ABORT (rule R191). -/
  | aborted
  deriving DecidableEq, Repr

/-- Why a step stops without a next state. No instruction raises one. -/
inductive Fault where
  /-- Raised by `step` in a state whose STATUS is HaltedNormally: it "has no step" (rule R46, decision D16). Safe: the
  machine does not go on there either. Log entry 4. -/
  | noStepHaltedNormally
  /-- Raised by `step` in a state whose STATUS is HaltedOnError: it "has no step" (rule R46, decision D16). Safe: the
  machine does not go on there either. Log entry 4. -/
  | noStepHaltedOnError
  deriving DecidableEq, Repr

/-- Why an input has no meaning. Neither `step` nor a meaning raises one; LOAD does (rule R200). -/
inductive Refusal where
  /-- Raised by `exec` for an instruction without a meaning: no arm does. Safe. -/
  | notModelled (mnemonic : String)
  /-- Raised by `load` for a program of more than 1024 instruction values (rules R41, R200). Safe: no run starts. -/
  | programTooLong
  /-- Raised by `loadWords` for words that spell no instruction (rules R92, R200). Safe: no run starts. -/
  | invalidWords (e : DecodeError)
  /-- Raised by `perform` for an operation other than LOAD on a block that was never loaded, which "has no defined
  state" (rule R43). Safe: there is no engine to claim anything about. -/
  | notLoaded
  deriving DecidableEq, Repr

/-- The state of one engine instance. -/
structure State where
  /-- `x`: the registers r0 to r15 (rules R20, R25). -/
  regs : Vector Word 16
  /-- The program counter, 64 bits unsigned (rules R27, R29): while an instruction executes, its own address. -/
  pc : Word
  /-- The instruction memory (rules R35, R60). -/
  mem : Memory
  /-- The output trace, the oldest line first, unbounded (rule R36). -/
  trace : List Line
  /-- STATUS (rule R31). -/
  status : Status
  deriving DecidableEq, Repr

/-- The state that LOAD of the empty program leaves (rules R210 to R216): every register 0, pc 0, every slot `nop`, the
trace empty, Running. A program comes in by LOAD (log entry 2). -/
def State.reset : State where
  regs := Vector.replicate 16 0
  pc := 0
  mem := []
  trace := []
  status := .running

end Sys2Proof.Machine
end

