-- ==== Sys2Proof/Machine/Operands.lean ====
section
/-! DEFINITION. How a register operand is read (rule R84): as a data value, as an address, as a branch or jump target, or
as a signed offset. There is no other operand form (rule R87); the immediate of `mov` and the literal of `write` are
used as they stand (rules R85, R86). Also the exact arithmetic on the values read and its narrowing. -/

namespace Sys2Proof.Machine

/-- The content of a register (`x[i]`, rule R12). No register is hardwired (rule R25). -/
def State.reg (s : State) (r : Reg) : Word := s.regs[r.toNat]'r.isLt

/-- A register read as a data value: a signed integer (`s64(x[r])`, rules R20, R84). -/
def State.dataOperand (s : State) (r : Reg) : Int := (s.reg r).toInt

/-- A register read as the address of a slot: an unsigned number (`u64(x[r])`, rule R63, decision D4). -/
def State.addrOperand (s : State) (r : Reg) : Nat := (s.reg r).toNat

/-- A register read as a branch or jump target: all its bits (rules R87, R159). -/
def State.targetOperand (s : State) (r : Reg) : Word := s.reg r

/-- A register read as the signed offset of `rj` (rule R163). -/
def State.offsetOperand (s : State) (r : Reg) : Int := (s.reg r).toInt

/-- The unique 64-bit value congruent to `n` modulo 2^64 (`wrap64`, rule R11). -/
def wrap64 (n : Int) : Word := BitVec.ofInt 64 n

/-- Division truncating toward zero (`truncdiv`, rule R112, decision D5; log entry 8): the quotient of the magnitudes,
negative when the signs differ. -/
def truncDiv (a b : Int) : Int :=
  let q : Int := ((a.natAbs / b.natAbs : Nat) : Int)
  if (a < 0 ∧ 0 < b) ∨ (0 < a ∧ b < 0) then -q else q

end Sys2Proof.Machine
end

