-- ==== Sys2Proof/Machine/Flags.lean ====
section
/-! DEFINITION. The engine has no flags, condition codes or predicates, and no instruction sets a flag (rule R33). What a
conditional branch tests instead, the equality of two registers, stands here. -/

namespace Sys2Proof.Machine

/-- The condition of `beq`, negated for `bne`: equality of the 64 bits of two registers (rule R160). -/
def State.regsEqual (s : State) (ra rb : Reg) : Bool := s.reg ra == s.reg rb

end Sys2Proof.Machine
end

