-- ==== Sys2Proof/Machine/Memory.lean ====
section
/-! DEFINITION. The instruction memory: reading and writing one slot, the canonical form, and the memory that LOAD
builds. Accesses are of exactly one slot (rules R61, R64); the bounds check stands in the meanings and in the fetch
guard. -/

namespace Sys2Proof.Machine

/-- What a slot that is not listed holds: "remaining capacity zero-filled with NoOp" (rule R211). -/
def Memory.unlisted : Instr := .nop

/-- The instruction value held in slot `a` (`MemRead(a, 1)`, rule R12). -/
def Memory.read : Memory → Nat → Instr
  | [], _ => Memory.unlisted
  | (b, i) :: m, a => if a = b then i else Memory.read m a

/-- A slot put before the slots that follow it, left out where it holds what an unlisted slot holds. -/
def Memory.cons (a : Nat) (i : Instr) (m : Memory) : Memory :=
  if i = Memory.unlisted then m else (a, i) :: m

/-- Replace the instruction value in slot `a` by `i` (`MemWrite(a, 1, i)`, rule R12); every other slot keeps its value
(rule R67). -/
def Memory.write : Memory → Nat → Instr → Memory
  | [], a, i => Memory.cons a i []
  | (b, k) :: m, a, i =>
    if a < b then Memory.cons a i ((b, k) :: m)
    else if a = b then Memory.cons a i m
    else (b, k) :: Memory.write m a i

/-- The canonical form from slot `lo` on: addresses strictly rising, all of them slots of the memory, none holding what
an unlisted slot holds. -/
def Memory.wfFrom (lo : Nat) : Memory → Bool
  | [] => true
  | (a, i) :: m => decide (lo ≤ a) && decide (a < Config.memSlots) && decide (i ≠ Memory.unlisted) && Memory.wfFrom (a + 1) m

/-- The canonical form of a memory: equal memories are equal data. -/
def Memory.wf (m : Memory) : Bool := Memory.wfFrom 0 m

/-- The slots from `a` on that hold the instructions of `p` in order. -/
def Memory.place (a : Nat) : List Instr → Memory
  | [] => []
  | i :: p => Memory.cons a i (Memory.place (a + 1) p)

/-- The memory that LOAD builds: slot i holds `p[i]`, every slot beyond the program holds `nop` (rule R211). -/
def Memory.ofProgram (p : List Instr) : Memory := Memory.place 0 p

end Sys2Proof.Machine
end

