-- ==== Sys2Proof/Machine/Render.lean ====
section
/-! DEFINITION. Texts: decimal numbers, register names, disassembly (rules R100 to R104), the register dump (rule R142),
the message of each runtime fault (rule R182) and the no-output sentinel (rule R188). -/

namespace Sys2Proof.Machine

/-- Decimal text of an integer: a leading `-` when negative, no `+`, no leading zeros, `0` for zero (rule R102). -/
def dec (n : Int) : Line :=
  if n < 0 then "-" ++ Nat.repr n.natAbs else Nat.repr n.natAbs

/-- A value read as signed, in decimal. -/
def decSigned (w : Word) : Line := dec w.toInt

/-- A value read as unsigned, in decimal. -/
def decUnsigned (w : Word) : Line := dec (w.toNat : Int)

/-- The name of a register: `r` and its number (rule R101). -/
def regName (r : Reg) : Line := "r" ++ dec (r.toNat : Int)

/-- A mnemonic and three register operands. -/
def renderRRR (mnemonic : Line) (r1 r2 r3 : Reg) : Line :=
  mnemonic ++ " " ++ regName r1 ++ ", " ++ regName r2 ++ ", " ++ regName r3

/-- The disassembly of an instruction value (rules R100, R103, R104), the embedded literal of `write` in brackets. -/
def render : Instr → Line
  | .nop => "nop"
  | .mov rd imm => "mov " ++ regName rd ++ ", " ++ decSigned imm
  | .add rd ra rb => renderRRR "add" rd ra rb
  | .sub rd ra rb => renderRRR "sub" rd ra rb
  | .mul rd ra rb => renderRRR "mul" rd ra rb
  | .div rd ra rb => renderRRR "div" rd ra rb
  | .print => "print"
  | .printr => "printr"
  | .copy rd rs => "copy " ++ regName rd ++ ", " ++ regName rs
  | .beq ra rb rt => renderRRR "beq" ra rb rt
  | .bne ra rb rt => renderRRR "bne" ra rb rt
  | .j rt => "j " ++ regName rt
  | .rj rt => "rj " ++ regName rt
  | .write rd ins => "write " ++ regName rd ++ ", [" ++ render ins ++ "]"
  | .halt => "halt"

/-- One pair `r<i>: <value>` of the register dump (rule R142). -/
def regPair (regs : Vector Word 16) (i : Fin 16) : Line :=
  "r" ++ dec (i.val : Int) ++ ": " ++ decSigned regs[i]

/-- What stands between two pairs of the register dump (rule R142, decision D10; log entry 7). -/
def regDumpSeparator : Line := ", "

/-- The register dump line: all 16 pairs in ascending order, no separator after r15 (rule R142). -/
def regDump (regs : Vector Word 16) : Line :=
  regDumpSeparator.intercalate ((List.finRange 16).map (regPair regs))

/-- The code of a runtime fault (rule R181). -/
def RuntimeFault.code : RuntimeFault → Nat
  | .pcOutOfBounds _ => 1
  | .copyFromOutOfBounds _ => 2
  | .copyToOutOfBounds _ => 3
  | .writeOutOfBounds _ => 4
  | .divByZero _ _ => 5
  | .aborted => 6

/-! The fixed parts of the message lines (rule R182, decision D8; log entry 7). -/

def pcOutOfBoundsText : Line := "error: program counter out of bounds: "
def copyFromText : Line := "error: copy from address "
def copyToText : Line := "error: copy to address "
def writeToText : Line := "error: write to address "
def outOfBoundsText : Line := " out of bounds"
def divByZeroText : Line := "error: division by zero at "
def abortedText : Line := "error: execution cancelled"

/-- The message line of a runtime fault (rule R182). -/
def RuntimeFault.message : RuntimeFault → Line
  | .pcOutOfBounds pc => pcOutOfBoundsText ++ decUnsigned pc
  | .copyFromOutOfBounds src => copyFromText ++ decUnsigned src ++ outOfBoundsText
  | .copyToOutOfBounds dst => copyToText ++ decUnsigned dst ++ outOfBoundsText
  | .writeOutOfBounds dst => writeToText ++ decUnsigned dst ++ outOfBoundsText
  | .divByZero pc text => divByZeroText ++ decUnsigned pc ++ ": " ++ text
  | .aborted => abortedText

/-- The line that stands for an empty trace at the end of a run (rule R188, decision D9; log entry 7). -/
def noOutputLine : Line := "no output"

end Sys2Proof.Machine
end

