-- ==== Sys2Proof/Machine/Ops.lean ====
section
/-! DEFINITION. The named operations that every meaning is made of: register, pc, memory, trace and STATUS updates, the
bounds check, the fetch, raising a runtime fault (the ONE place where this hardware takes an exception, rule R183) and
ending a run. The engine has no handler and no return from a fault (rule R186). -/

namespace Sys2Proof.Machine

/-- What a meaning answers. -/
abbrev Result := Host.Outcome State Fault Refusal

/-! ### Registers and program counter -/

/-- `x[r] <- v` (rule R12). -/
def State.setReg (s : State) (r : Reg) (v : Word) : State := { s with regs := s.regs.set r.toNat v r.isLt }

/-- `pc <- v`; not checked here (rule R29). -/
def State.setPc (s : State) (v : Word) : State := { s with pc := v }

/-- The address of the next instruction in sequence, `pc + 1` (rules R28, R49, R82). -/
def State.nextPc (s : State) : Word := s.pc + 1

/-- `pc <- pc + 1`. -/
def State.advance (s : State) : State := s.setPc s.nextPc

/-! ### Memory -/

/-- An unsigned address names a slot (`inBounds`, rules R12, R63, R152). -/
def inBounds (a : Nat) : Bool := decide (a < Config.memSlots)

/-- `MemRead(a, 1)`. -/
def State.slot (s : State) (a : Nat) : Instr := s.mem.read a

/-- `MemWrite(a, 1, i)`. -/
def State.setSlot (s : State) (a : Nat) (i : Instr) : State := { s with mem := s.mem.write a i }

/-- The instruction at the program counter (rule R48): the slot's content at that moment (rule R73). -/
def State.fetch (s : State) : Instr := s.slot s.pc.toNat

/-- The slot before the program counter, the last slot before slot 0 (rules R68, R140). -/
def State.prevSlot (s : State) : Nat := (s.pc.toNat + (Config.memSlots - 1)) % Config.memSlots

/-! ### Trace and status -/

/-- `emit`: append a line to the trace (rules R12, R36). -/
def State.emit (s : State) (l : Line) : State := { s with trace := s.trace ++ [l] }

/-- Set STATUS (rule R31). -/
def State.setStatus (s : State) (st : Status) : State := { s with status := st }

/-- STATE, the two-bit field of STATUS (rule R31, decision D28). -/
def Status.code : Status → BitVec 2
  | .running => 0
  | .haltedNormally => 1
  | .haltedOnError _ => 2

/-- MSG, the text field of STATUS: empty unless HaltedOnError (rule R31). -/
def Status.msg : Status → Line
  | .running => ""
  | .haltedNormally => ""
  | .haltedOnError m => m

/-- STATE = Running. -/
def Status.isRunning : Status → Bool
  | .running => true
  | .haltedNormally => false
  | .haltedOnError _ => false

/-! ### The end of a run -/

/-- `raise Fault(kind, info)` (rule R183): append the message line, then set STATUS to HaltedOnError with MSG equal to
that line. Registers, memory and pc keep their values (rule R184, decision D12; log entry 9). -/
def State.raise (s : State) (f : RuntimeFault) : State :=
  (s.emit f.message).setStatus (.haltedOnError f.message)

/-- `halt_normally` (rule R187): registers, memory and pc keep their values (rule R164, decision D13). -/
def State.haltNormally (s : State) : State := s.setStatus .haltedNormally

/-- The last part of a step (rules R46, R188): a run that has ended with an empty trace leaves the sentinel line. -/
def State.endOfRun (s : State) : State :=
  if s.status.isRunning = false ∧ s.trace = [] then s.emit noOutputLine else s

/-! ### Shared shapes of meanings -/

/-- Write an integer result to a register, wrapped, and advance (rule R110). -/
def State.writeResult (s : State) (rd : Reg) (n : Int) : State := (s.setReg rd (wrap64 n)).advance

/-- Take a branch or advance (rules R159 to R161): the target is not checked here. -/
def State.branch (s : State) (taken : Bool) (rt : Reg) : State :=
  if taken = true then s.setPc (s.targetOperand rt) else s.advance

/-- `emit` of the disassembly of the slot before pc, the first effect of `print` and `printr` (rules R140, R141). -/
def State.emitPrevSlot (s : State) : State := s.emit (render (s.slot s.prevSlot))

end Sys2Proof.Machine
end

