-- ==== Sys2Proof/Machine/Arith.lean ====
section
/-! DEFINITION. The meanings of `nop`, `mov`, `add`, `sub`, `mul` and `div` (file 40). -/

namespace Sys2Proof.Machine

/-- `nop`: only the pc advances (rule R120). -/
def execNop (s : State) : Result := .next s.advance

/-- `mov rD, imm`: the immediate bit for bit (rules R85, R121). -/
def execMov (rd : Reg) (imm : Word) (s : State) : Result := .next (s.setReg rd imm).advance

/-- `add rD, rA, rB` (rules R110, R122). -/
def execAdd (rd ra rb : Reg) (s : State) : Result := .next (s.writeResult rd (s.dataOperand ra + s.dataOperand rb))

/-- `sub rD, rA, rB`: rA is the minuend (rules R110, R113, R123). -/
def execSub (rd ra rb : Reg) (s : State) : Result := .next (s.writeResult rd (s.dataOperand ra - s.dataOperand rb))

/-- `mul rD, rA, rB`: the low 64 bits of the exact product (rules R110, R111, R124). -/
def execMul (rd ra rb : Reg) (s : State) : Result := .next (s.writeResult rd (s.dataOperand ra * s.dataOperand rb))

/-- `div rD, rA, rB`: rA is the dividend; a zero divisor raises code 5 (rules R112, R113, R125). -/
def execDiv (rd ra rb : Reg) (s : State) : Result :=
  if s.dataOperand rb = 0 then .next (s.raise (.divByZero s.pc (render (.div rd ra rb))))
  else .next (s.writeResult rd (truncDiv (s.dataOperand ra) (s.dataOperand rb)))

end Sys2Proof.Machine
end

