-- ==== Sys2Proof/Machine/Control.lean ====
section
/-! DEFINITION. The meanings of `beq`, `bne`, `j`, `rj` and `halt` (file 43). Targets come from registers and are checked
at the next fetch only (rule R159). -/

namespace Sys2Proof.Machine

/-- `beq rA, rB, rT` (rule R160). -/
def execBeq (ra rb rt : Reg) (s : State) : Result := .next (s.branch (s.regsEqual ra rb) rt)

/-- `bne rA, rB, rT` (rule R161). -/
def execBne (ra rb rt : Reg) (s : State) : Result := .next (s.branch (!s.regsEqual ra rb) rt)

/-- `j rT`: the target is read before the link is written (rule R162, decision D6). -/
def execJ (rt : Reg) (s : State) : Result :=
  .next ((s.setReg Config.linkReg s.nextPc).setPc (s.targetOperand rt))

/-- `rj rT`: the base is the address of the `rj` itself (rule R163). -/
def execRj (rt : Reg) (s : State) : Result := .next (s.setPc (wrap64 ((s.pc.toNat : Int) + s.offsetOperand rt)))

/-- `halt` (rules R164, R187). -/
def execHalt (s : State) : Result := .next s.haltNormally

end Sys2Proof.Machine
end

