-- ==== Sys2Proof/Machine/MemoryOps.lean ====
section
/-! DEFINITION. The meanings of `copy` and `write` (file 42): the only instructions that write memory. -/

namespace Sys2Proof.Machine

/-- `copy rD, rS`: both registers hold addresses; the source is checked first (rules R150, R152, R185). -/
def execCopy (rd rs : Reg) (s : State) : Result :=
  if inBounds (s.addrOperand rs) = false then .next (s.raise (.copyFromOutOfBounds (s.reg rs)))
  else if inBounds (s.addrOperand rd) = false then .next (s.raise (.copyToOutOfBounds (s.reg rd)))
  else .next (s.setSlot (s.addrOperand rd) (s.slot (s.addrOperand rs))).advance

/-- `write rD, [ins]`: the register holds the address, the literal is stored unchanged (rules R86, R151, R152). -/
def execWrite (rd : Reg) (ins : Instr) (s : State) : Result :=
  if inBounds (s.addrOperand rd) = false then .next (s.raise (.writeOutOfBounds (s.reg rd)))
  else .next (s.setSlot (s.addrOperand rd) ins).advance

end Sys2Proof.Machine
end

