-- ==== Sys2Proof/Machine/Trace.lean ====
section
/-! DEFINITION. The meanings of `print` and `printr` (file 41): the only instructions that append to the trace. -/

namespace Sys2Proof.Machine

/-- `print`: the disassembly of the slot before pc (rule R140). -/
def execPrint (s : State) : Result := .next s.emitPrevSlot.advance

/-- `printr`: the line of `print`, then the register dump (rules R141, R142). -/
def execPrintr (s : State) : Result := .next (s.emitPrevSlot.emit (regDump s.regs)).advance

end Sys2Proof.Machine
end

