-- ==== Sys2Proof/Machine/Dispatch.lean ====
section
/-! DEFINITION. `execute(ins)` of the execution cycle (rule R46): one arm per instruction. -/

namespace Sys2Proof.Machine

def exec (i : Instr) (s : State) : Host.Outcome State Fault Refusal :=
  match i with
  | .nop => Sys2Proof.Machine.execNop s
  | .mov rd imm => Sys2Proof.Machine.execMov rd imm s
  | .add rd ra rb => Sys2Proof.Machine.execAdd rd ra rb s
  | .sub rd ra rb => Sys2Proof.Machine.execSub rd ra rb s
  | .mul rd ra rb => Sys2Proof.Machine.execMul rd ra rb s
  | .div rd ra rb => Sys2Proof.Machine.execDiv rd ra rb s
  | .print => Sys2Proof.Machine.execPrint s
  | .printr => Sys2Proof.Machine.execPrintr s
  | .copy rd rs => Sys2Proof.Machine.execCopy rd rs s
  | .beq ra rb rt => Sys2Proof.Machine.execBeq ra rb rt s
  | .bne ra rb rt => Sys2Proof.Machine.execBne ra rb rt s
  | .j rt => Sys2Proof.Machine.execJ rt s
  | .rj rt => Sys2Proof.Machine.execRj rt s
  | .write rd ins => Sys2Proof.Machine.execWrite rd ins s
  | .halt => Sys2Proof.Machine.execHalt s

end Sys2Proof.Machine
end

