-- ==== Sys2Proof/Machine/Cycle.lean ====
section
/-! DEFINITION. The parts of the execution cycle that `step` calls (rules R46 to R49), and where the host's test word
goes. -/

namespace Sys2Proof.Machine

/-- The end-of-run part of a step, after what the step did (rules R46, R188). -/
def concludeStep : Result → Result
  | .next s => .next s.endOfRun
  | .fault f => .fault f
  | .refused r => .refused r

/-- One execution step of a Running engine (rule R46): the fetch guard (rule R47), then fetch and execute (rule R48),
then the end-of-run part. -/
def runningStep (s : State) : Result :=
  if inBounds s.pc.toNat = false then concludeStep (.next (s.raise (.pcOutOfBounds s.pc)))
  else concludeStep (exec s.fetch s)

/-- An instruction placed in the slot at the program counter; nothing changes where the pc names no slot. -/
def State.placeAtPc (s : State) (i : Instr) : State :=
  if inBounds s.pc.toNat = true then s.setSlot s.pc.toNat i else s

end Sys2Proof.Machine
end

