-- ==== Sys2Proof/Machine/Step.lean ====
section
/-! DEFINITION. One step of the machine. Only a Running engine has one (rule R46, decision D16). -/

namespace Sys2Proof.Machine

/-- One execution step. A runtime fault leads to a next state, HaltedOnError; a halted state has no step. -/
def step (s : State) : Host.Outcome State Fault Refusal :=
  match s.status with
  | .running => runningStep s
  | .haltedNormally => .fault .noStepHaltedNormally
  | .haltedOnError _ => .fault .noStepHaltedOnError

/-- The instruction of a table word stored where `step` fetches next. It stands for what LOAD does (log entry 2);
nothing changes where the word spells no instruction. -/
def State.withFetchWord (s : State) (nbits w : Nat) : State :=
  match decodeTableWord nbits w with
  | some i => s.placeAtPc i
  | none => s

end Sys2Proof.Machine
end

