-- ==== Sys2Proof/Machine/Interface.lean ====
section
/-! DEFINITION. The operations the block offers its host (rule R40): LOAD, RUN, STEP, ABORT, READ_TRACE and READ_STATUS.
STEP is `step` of Machine/Step.lean. -/

namespace Sys2Proof.Machine

/-- The state that LOAD of a program that fits leaves (rules R210 to R215); no state of a previous run survives. -/
def loadedState (p : List Instr) : State := { State.reset with mem := Memory.ofProgram p }

/-- LOAD(program): a program of more than 1024 instruction values is refused and starts no run (rules R41, R200). -/
def load (p : List Instr) : Except Refusal State :=
  if programFits p = true then .ok (loadedState p) else .error .programTooLong

/-- LOAD of a serialised program: words that spell no instruction are refused (rules R92, R200). -/
def loadWords (ws : List HalfWord) : Except Refusal State :=
  match decodeProgram ws with
  | .ok p => load p
  | .error e => .error (.invalidWords e)

/-- The state after `n` steps, or after fewer where the run ends before (a halted state has no step, decision D16). -/
def stepsFor : Nat → State → State
  | 0, s => s
  | n + 1, s =>
    match step s with
    | .next t => stepsFor n t
    | .fault _ => s
    | .refused _ => s

/-- RUN, looked at after `n` steps: the state it returns, or none while it has not returned (rule R42). On a halted
engine it returns at once (decision D16). -/
def runFor (n : Nat) (s : State) : Option State :=
  if (stepsFor n s).status.isRunning = true then none else some (stepsFor n s)

/-- RUN from `s` returns, and the state it leaves is `t` (rule R42). -/
def RunReturns (s t : State) : Prop := ∃ n, runFor n s = some t

/-- RUN from `s` never returns (rules R52, R190). -/
def RunsForever (s : State) : Prop := ∀ n, runFor n s = none

/-- ABORT, taken between two steps (rule R191, decision D19): code 6 while Running, nothing in a halted state. -/
def State.abort (s : State) : State :=
  if s.status.isRunning = true then s.raise .aborted else s

/-- READ_TRACE: the trace lines in order. -/
def State.readTrace (s : State) : List Line := s.trace

/-- READ_STATUS: STATE and MSG (rule R31). -/
def State.readStatus (s : State) : BitVec 2 × Line := (s.status.code, s.status.msg)

/-! ### The operations as the host issues them -/

/-- The operations of rule R40, with what the host gives. A RUN is looked at after a number of steps: the host may ABORT
it between any two (rule R43). -/
inductive HostOp where
  | load (p : List Instr)
  | loadWords (ws : List HalfWord)
  | run (steps : Nat)
  | step
  | abort
  | readTrace
  | readStatus
  deriving DecidableEq, Repr

/-- What the host gets back (rule R40). -/
inductive HostReply where
  /-- LOAD took the program: "nothing". -/
  | loaded
  /-- STATE and MSG. -/
  | status (state : BitVec 2) (msg : Line)
  /-- The trace lines in order. -/
  | trace (lines : List Line)
  /-- The RUN has not returned yet. -/
  | stillRunning
  /-- The operation is refused and changes nothing (rules R41, R43, R200). -/
  | refused (r : Refusal)
  deriving DecidableEq, Repr

/-- The reply that carries STATUS. -/
def State.statusReply (s : State) : HostReply := .status s.status.code s.status.msg

/-- The reply of a RUN looked at in a state: STATUS once it has returned (rule R42). -/
def State.runReply (s : State) : HostReply := if s.status.isRunning = true then .stillRunning else s.statusReply

/-- The outcome of LOAD on a block: a program taken replaces whatever ran before (rule R210), a refused one changes
nothing (rule R41). -/
def performLoad (outcome : Except Refusal State) (e : Option State) : HostReply × Option State :=
  match outcome with
  | .ok s => (.loaded, some s)
  | .error r => (.refused r, e)

/-- One operation of the host on the block (rules R40 to R43). The block is none before its first LOAD, and only LOAD has
a meaning then. -/
def perform (op : HostOp) (e : Option State) : HostReply × Option State :=
  match op, e with
  | .load p, e => performLoad (load p) e
  | .loadWords ws, e => performLoad (loadWords ws) e
  | .run n, some s => ((stepsFor n s).runReply, some (stepsFor n s))
  | .step, some s => ((stepsFor 1 s).statusReply, some (stepsFor 1 s))
  | .abort, some s => (s.abort.statusReply, some s.abort)
  | .readTrace, some s => (.trace s.readTrace, some s)
  | .readStatus, some s => (s.statusReply, some s)
  | .run _, none => (.refused .notLoaded, none)
  | .step, none => (.refused .notLoaded, none)
  | .abort, none => (.refused .notLoaded, none)
  | .readTrace, none => (.refused .notLoaded, none)
  | .readStatus, none => (.refused .notLoaded, none)

end Sys2Proof.Machine
end

