-- ==== Sys2Proof/Safety.lean ====
section
/-! DEFINITION. The terms in which claims about the engine are made: what an operation leaves unchanged, what holds in
every state of a run, which states a run passes through, and the nesting depth of stored instructions. -/

namespace Sys2Proof.Machine

/-! ### What is left unchanged -/

/-- Every register keeps its value. -/
def SameRegs (s t : State) : Prop := ∀ r, t.reg r = s.reg r

/-- Every register but `rd` keeps its value. -/
def SameRegsBut (rd : Reg) (s t : State) : Prop := ∀ r, r ≠ rd → t.reg r = s.reg r

/-- Every slot of memory reads as before. -/
def SameSlots (s t : State) : Prop := ∀ a, t.slot a = s.slot a

/-- Every slot of memory but slot `b` reads as before. -/
def SameSlotsBut (b : Nat) (s t : State) : Prop := ∀ a, a ≠ b → t.slot a = s.slot a

/-- The trace and STATUS keep their values. -/
def SameOutput (s t : State) : Prop := t.trace = s.trace ∧ t.status = s.status

/-- A runtime fault with message line `m` and no other effect (rules R183, R184). -/
def FaultedWith (m : Line) (s t : State) : Prop :=
  SameRegs s t ∧ SameSlots s t ∧ t.pc = s.pc ∧ t.trace = s.trace ++ [m] ∧ t.status = .haltedOnError m

/-! ### What holds in every state of a run -/

/-- A line of printable ASCII characters (decision D17). -/
def printableLine (l : Line) : Bool :=
  l.toList.all (fun c => decide (32 ≤ c.toNat) && decide (c.toNat ≤ 126))

/-- The invariant of the engine: memory is in its canonical form, a run that has ended has a trace, the message of an
error halt is the trace's last line (rule R189), and every line is printable (decision D17). -/
structure State.Inv (s : State) : Prop where
  mem_wf : s.mem.wf = true
  ended_has_trace : s.status.isRunning = false → s.trace ≠ []
  error_is_last : ∀ m, s.status = .haltedOnError m → s.trace.getLast? = some m
  lines_printable : ∀ l ∈ s.trace, printableLine l = true

/-- `t` comes after `s` by steps alone: the run that RUN itself makes (rule R42). -/
inductive StepsTo : State → State → Prop where
  | start (s : State) : StepsTo s s
  | stepped {s t u : State} (before : StepsTo s t) (h : step t = .next u) : StepsTo s u

/-- `t` comes after `s` in a run: by steps, and by an ABORT of the host between two of them (rules R42, R191). -/
inductive Reaches : State → State → Prop where
  | start (s : State) : Reaches s s
  | stepped {s t u : State} (before : Reaches s t) (h : step t = .next u) : Reaches s u
  | cancelled {s t : State} (before : Reaches s t) : Reaches s t.abort

/-! ### Instructions by what they do -/

/-- The nesting depth of a slot's value: 0 for any instruction other than `write`, 1 + the depth of the embedded
instruction for `write` (rule R75). -/
def nestingDepth : Instr → Nat
  | .nop | .mov _ _ | .add _ _ _ | .sub _ _ _ | .mul _ _ _ | .div _ _ _ | .print | .printr | .copy _ _ | .beq _ _ _
  | .bne _ _ _ | .j _ | .rj _ | .halt => 0
  | .write _ ins => 1 + nestingDepth ins

/-- The target of a control transfer that is taken in a state (rules R160 to R163), none where the instruction goes on
in sequence, faults or halts. -/
def takenTarget (s : State) : Instr → Option Word
  | .beq ra rb rt => if s.reg ra = s.reg rb then some (s.reg rt) else none
  | .bne ra rb rt => if s.reg ra ≠ s.reg rb then some (s.reg rt) else none
  | .j rt => some (s.reg rt)
  | .rj rt => some (s.pc + s.reg rt)
  | .nop | .mov _ _ | .add _ _ _ | .sub _ _ _ | .mul _ _ _ | .div _ _ _ | .print | .printr | .copy _ _ | .write _ _
  | .halt => none

end Sys2Proof.Machine
end

