-- ==== Sys2Proof/Certificates/Slice0/Obligations.lean ====
section
/-! DEFINITION. The statements made about the model, from the numbered rules of spec/. Where a clause rests on a decision
of the spec (file 92, D<n>) or on a choice of the model (notes/assumptions/<n>.md), the docstring names it. -/

open Sys2Proof Sys2Proof.Machine

/-! ### Reset and LOAD -/

/-- R212, R213, R215: after reset every register is 0, pc is 0, STATE is Running and MSG is empty. -/
def Obligations.ResetRegistersPcStatus : Prop :=
  (∀ r : Reg, State.reset.reg r = 0) ∧ State.reset.pc = 0 ∧ State.reset.status = .running ∧
    State.reset.status.msg = ""

/-- R210 to R215 for a program that fits: slot i holds `p[i]`, every slot after the program holds `nop`, registers and pc
are 0, the trace is empty (the spec marks R214 as derived), STATE is Running; and the memory is in canonical form. -/
def Obligations.LoadSetsWholeState : Prop :=
  ∀ p : List Instr, p.length ≤ 1024 → ∃ s, load p = .ok s ∧
    (∀ (a : Nat) (h : a < p.length), s.slot a = p[a]) ∧ (∀ a, p.length ≤ a → a < 1024 → s.slot a = .nop) ∧
    (∀ r, s.reg r = 0) ∧ s.pc = 0 ∧ s.trace = [] ∧ s.status = .running ∧ s.mem.wf = true

/-- R41, R200 (decision D20): LOAD refuses a program of more than 1024 instruction values, as values and as words (the
words of a program: decision D2 and the model's choices of log entries 3 and 14). -/
def Obligations.LoadRefusesOversizedProgram : Prop :=
  ∀ p : List Instr, 1024 < p.length →
    load p = .error .programTooLong ∧ loadWords (encodeProgram p) = .error .programTooLong

/-- R88 (decision D2; log entries 3 and 14): LOAD of the words of a program is LOAD of the program. -/
def Obligations.LoadOfSerialisedProgram : Prop :=
  ∀ p : List Instr, loadWords (encodeProgram p) = load p

/-- R92, R200 (decisions D2, D24; log entries 3 and 14): a word that belongs to no row of the opcode table, standing
where an instruction begins, makes LOAD refuse the words, whatever follows it. -/
def Obligations.LoadRefusesInvalidWords : Prop :=
  ∀ (p : List Instr) (w : HalfWord) (ws : List HalfWord), (∀ row ∈ opcodeRows, row.covers w = false) →
    ∃ e, loadWords (encodeProgram p ++ w :: ws) = .error (.invalidWords e)

/-- R31, R40 to R43, R191 (decisions D16, D18 to D20; text of the ABORT: D8, log entry 7; its MSG and STATE code: D27 and
D28, log entry 9; log entries 6 and 13): what the host's operations do to the block. LOAD, of values or of words, puts the
block in the state that `load` (or `loadWords`) gives for that program, whatever ran before, or is refused and changes
nothing; a program that fits is taken, a longer one is refused; before the first LOAD every other operation is refused.
The two reads change nothing. STEP takes the one step that a Running engine has. RUN goes on step by step while the engine
is Running, has not returned as long as it is, and then returns STATUS. ABORT of a Running engine answers STATUS, which is
STATE HaltedOnError (code 2, D28) with the cancellation line as MSG (D27), and is that fault alone. On a halted engine
STEP, RUN and ABORT answer STATUS and change nothing. -/
def Obligations.HostOperationsOnBlock : Prop :=
  (∀ (p : List Instr) (e : Option State) (s : State), load p = .ok s → perform (.load p) e = (.loaded, some s)) ∧
  (∀ (p : List Instr) (e : Option State) (r : Refusal), load p = .error r → perform (.load p) e = (.refused r, e)) ∧
  (∀ (ws : List HalfWord) (e : Option State) (s : State), loadWords ws = .ok s →
    perform (.loadWords ws) e = (.loaded, some s)) ∧
  (∀ (ws : List HalfWord) (e : Option State) (r : Refusal), loadWords ws = .error r →
    perform (.loadWords ws) e = (.refused r, e)) ∧
  (∀ (p : List Instr) (e : Option State), p.length ≤ 1024 →
    ∃ s, load p = .ok s ∧ perform (.load p) e = (.loaded, some s)) ∧
  (∀ (p : List Instr) (e : Option State), 1024 < p.length → perform (.load p) e = (.refused .programTooLong, e)) ∧
  (∀ op : HostOp, (∀ p, op ≠ .load p) → (∀ ws, op ≠ .loadWords ws) →
    perform op none = (.refused .notLoaded, none)) ∧
  (∀ s : State, perform .readTrace (some s) = (.trace s.trace, some s) ∧
    perform .readStatus (some s) = (.status s.status.code s.status.msg, some s)) ∧
  (∀ s t : State, step s = .next t → perform .step (some s) = (.status t.status.code t.status.msg, some t)) ∧
  (∀ s : State, s.status = .running → perform (.run 0) (some s) = (.stillRunning, some s)) ∧
  (∀ (n : Nat) (s t : State), step s = .next t → perform (.run (n + 1)) (some s) = perform (.run n) (some t)) ∧
  (∀ (n : Nat) (s t : State), runFor n s = some t →
    perform (.run n) (some s) = (.status t.status.code t.status.msg, some t)) ∧
  (∀ s : State, s.status = .running → ∃ t, perform .abort (some s) = (.status 2 "error: execution cancelled", some t) ∧
    FaultedWith "error: execution cancelled" s t) ∧
  (∀ (s : State) (n : Nat), s.status ≠ .running →
    perform .step (some s) = (.status s.status.code s.status.msg, some s) ∧
    perform (.run n) (some s) = (.status s.status.code s.status.msg, some s) ∧
    perform .abort (some s) = (.status s.status.code s.status.msg, some s))

/-! ### Encoding -/

/-- Decision D2 (R89): no header word belongs to two rows of the opcode table. -/
def Obligations.OpcodeRowsDisjoint : Prop :=
  ∀ (w : HalfWord) (r₁ r₂ : OpcodeRow), r₁ ∈ opcodeRows → r₂ ∈ opcodeRows → r₁.covers w = true → r₂.covers w = true →
    r₁ = r₂

/-- Decisions D2, D24 (R90, R92): the decoder accepts a header word exactly where it belongs to a row of the table. -/
def Obligations.HeaderAcceptedIffInTable : Prop :=
  ∀ w : HalfWord, (∃ m, decodeHeader w = .ok m) ↔ ∃ row ∈ opcodeRows, row.covers w = true

/-- Decision D2 (R88, R90; log entry 3): decoding the serialised form of any instruction gives it back, with every word
after it left over. Every value of `Instr` is well-formed (R91), so no hypothesis is needed. -/
def Obligations.DecodeOfEncode : Prop :=
  ∀ (i : Instr) (rest : List HalfWord), decode (encode i ++ rest) = .ok (i, rest)

/-- Decision D2 (R88, R90; log entry 3): the words that decode to an instruction are its serialised form. -/
def Obligations.EncodeOfDecode : Prop :=
  ∀ (ws : List HalfWord) (i : Instr) (rest : List HalfWord), decode ws = .ok (i, rest) → ws = encode i ++ rest

/-- Encodings written out in file 95 (programs P1, P2, P4, P5, P6 and P8; the header word is decision D2) decode to the
instructions they stand for. That the payload of the `mov` is four 16-bit words, the most significant first, is the
model's choice (log entry 3). -/
def Obligations.WordsOfTheSpecDecode : Prop :=
  decode [0x2312] = .ok (.add 3 1 2, []) ∧ decode [0x8100] = .ok (.copy 1 0, []) ∧
    decode [0xa103] = .ok (.bne 1 0 3, []) ∧ decode [0xbf00] = .ok (.j 15, []) ∧ decode [0xc100] = .ok (.rj 1, []) ∧
    decode [0x1200, 0xffff, 0xffff, 0xffff, 0xfffd] = .ok (.mov 2 (-3), []) ∧
    decode [0xd000, 0xd100, 0xe000] = .ok (.write 0 (.write 1 .halt), [])

/-- R100: the text of every instruction, row by row of the grammar, register names and numbers written as R101 and R102
say (decision D11; log entry 7). -/
def Obligations.DisassemblyGrammar : Prop :=
  ∀ (d a b s t : Reg) (imm : Word) (ins : Instr),
    render .nop = "nop" ∧ render (.mov d imm) = "mov r" ++ dec d.toNat ++ ", " ++ dec imm.toInt ∧
    render (.add d a b) = "add r" ++ dec d.toNat ++ ", r" ++ dec a.toNat ++ ", r" ++ dec b.toNat ∧
    render (.sub d a b) = "sub r" ++ dec d.toNat ++ ", r" ++ dec a.toNat ++ ", r" ++ dec b.toNat ∧
    render (.mul d a b) = "mul r" ++ dec d.toNat ++ ", r" ++ dec a.toNat ++ ", r" ++ dec b.toNat ∧
    render (.div d a b) = "div r" ++ dec d.toNat ++ ", r" ++ dec a.toNat ++ ", r" ++ dec b.toNat ∧
    render .print = "print" ∧ render .printr = "printr" ∧
    render (.copy d s) = "copy r" ++ dec d.toNat ++ ", r" ++ dec s.toNat ∧
    render (.beq a b t) = "beq r" ++ dec a.toNat ++ ", r" ++ dec b.toNat ++ ", r" ++ dec t.toNat ∧
    render (.bne a b t) = "bne r" ++ dec a.toNat ++ ", r" ++ dec b.toNat ++ ", r" ++ dec t.toNat ∧
    render (.j t) = "j r" ++ dec t.toNat ∧ render (.rj t) = "rj r" ++ dec t.toNat ∧
    render .halt = "halt" ∧ render (.write d ins) = "write r" ++ dec d.toNat ++ ", [" ++ render ins ++ "]"

/-! ### The execution cycle -/

/-- R46, R48: a step in bounds executes the instruction held in the slot at pc, and it has a next state; a run that ends
in the step with an empty trace leaves the line `no output` (R188, decisions D9 and D15). -/
def Obligations.StepExecutesSlotAtPc : Prop :=
  ∀ s : State, s.status = .running → s.pc.toNat < 1024 → ∃ u, exec (s.mem.read s.pc.toNat) s = .next u ∧
    step s = .next (if u.status ≠ .running ∧ u.trace = [] then { u with trace := ["no output"] } else u)

/-- Log entry 2: a table word that the decoder reads as `i`, placed where the next step fetches, is executed by that step
as `i`. -/
def Obligations.StepExecutesDecodedWord : Prop :=
  ∀ (s : State) (nbits w : Nat) (i : Instr), s.status = .running → s.pc.toNat < 1024 → s.mem.wf = true →
    decodeTableWord nbits w = some i → ∃ u, exec i (s.withFetchWord nbits w) = .next u ∧
      step (s.withFetchWord nbits w) =
        .next (if u.status ≠ .running ∧ u.trace = [] then { u with trace := ["no output"] } else u)

/-- R47, R181, R182: out of bounds, the fetch guard ends the run and no instruction executes (text: decision D8; what is
left unchanged: decision D12). -/
def Obligations.FetchGuardEndsRun : Prop :=
  ∀ s : State, s.status = .running → 1024 ≤ s.pc.toNat → ∃ t, step s = .next t ∧
    FaultedWith ("error: program counter out of bounds: " ++ decUnsigned s.pc) s t

/-- R46, R186 (decisions D16, D19): a halted engine has no step, RUN returns at once with the state as it is, and ABORT
does nothing. -/
def Obligations.HaltedEngineStays : Prop :=
  ∀ (s : State) (n : Nat), s.status ≠ .running → (∀ t, step s ≠ .next t) ∧ runFor n s = some s ∧ s.abort = s

/-! ### Move and arithmetic -/

/-- R120: `nop` only advances the pc. -/
def Obligations.NopOnlyAdvances : Prop :=
  ∀ s : State, ∃ t, exec .nop s = .next t ∧ SameRegs s t ∧ SameSlots s t ∧ SameOutput s t ∧ t.pc = s.pc + 1

/-- R121: `mov` stores its immediate bit for bit and changes nothing else but the pc. -/
def Obligations.MovStoresImmediate : Prop :=
  ∀ (rd : Reg) (imm : Word) (s : State), ∃ t, exec (.mov rd imm) s = .next t ∧ t.reg rd = imm ∧ SameRegsBut rd s t ∧
    SameSlots s t ∧ SameOutput s t ∧ t.pc = s.pc + 1

/-- R122: `add` writes the exact sum of the signed operands reduced modulo 2^64 (`wrap64` is the unique 64-bit value
congruent to it, R11). -/
def Obligations.AddWrapsSum : Prop :=
  ∀ (rd ra rb : Reg) (s : State), ∃ t, exec (.add rd ra rb) s = .next t ∧
    ((t.reg rd).toNat : Int) = ((s.reg ra).toInt + (s.reg rb).toInt) % 2 ^ 64 ∧ SameRegsBut rd s t ∧ SameSlots s t ∧
    SameOutput s t ∧ t.pc = s.pc + 1

/-- R123: `sub` writes the exact difference rA - rB (operand order: decision D25) reduced modulo 2^64. -/
def Obligations.SubWrapsDifference : Prop :=
  ∀ (rd ra rb : Reg) (s : State), ∃ t, exec (.sub rd ra rb) s = .next t ∧
    ((t.reg rd).toNat : Int) = ((s.reg ra).toInt - (s.reg rb).toInt) % 2 ^ 64 ∧ SameRegsBut rd s t ∧ SameSlots s t ∧
    SameOutput s t ∧ t.pc = s.pc + 1

/-- R124: `mul` writes the exact product of the signed operands reduced modulo 2^64. -/
def Obligations.MulWrapsProduct : Prop :=
  ∀ (rd ra rb : Reg) (s : State), ∃ t, exec (.mul rd ra rb) s = .next t ∧
    ((t.reg rd).toNat : Int) = ((s.reg ra).toInt * (s.reg rb).toInt) % 2 ^ 64 ∧ SameRegsBut rd s t ∧ SameSlots s t ∧
    SameOutput s t ∧ t.pc = s.pc + 1

/-- R111 (which the spec marks as derived): the value `mul` writes is the same for the unsigned reading of its
operands, and so are those of `add` and `sub` (R110). -/
def Obligations.ResultsSameForUnsignedReading : Prop :=
  ∀ (rd ra rb : Reg) (s t : State),
    (exec (.mul rd ra rb) s = .next t → (t.reg rd).toNat = (s.reg ra).toNat * (s.reg rb).toNat % 2 ^ 64) ∧
    (exec (.add rd ra rb) s = .next t → (t.reg rd).toNat = ((s.reg ra).toNat + (s.reg rb).toNat) % 2 ^ 64) ∧
    (exec (.sub rd ra rb) s = .next t →
      ((t.reg rd).toNat : Int) = (((s.reg ra).toNat : Int) - ((s.reg rb).toNat : Int)) % 2 ^ 64)

/-- R112, R125 (truncation: decision D5 and log entry 8; operand order: decision D25): for a divisor other than 0, `div`
writes the quotient q reduced modulo 2^64, where |q| is the floor of |a| / |b| and q is negative exactly when the signs
are opposite and |a| is at least |b|. -/
def Obligations.DivTruncatesTowardZero : Prop :=
  ∀ (rd ra rb : Reg) (s : State), s.reg rb ≠ 0 → ∃ t, exec (.div rd ra rb) s = .next t ∧
    (∃ q : Int, q.natAbs = (s.reg ra).toInt.natAbs / (s.reg rb).toInt.natAbs ∧
      (q < 0 ↔ (s.reg rb).toInt.natAbs ≤ (s.reg ra).toInt.natAbs ∧
        ((s.reg ra).toInt < 0 ∧ 0 < (s.reg rb).toInt ∨ 0 < (s.reg ra).toInt ∧ (s.reg rb).toInt < 0)) ∧
      ((t.reg rd).toNat : Int) = q % 2 ^ 64) ∧
    SameRegsBut rd s t ∧ SameSlots s t ∧ SameOutput s t ∧ t.pc = s.pc + 1

/-- R125, R181, R182: a zero divisor ends the run; the message names the division (text: decision D8; what is left
unchanged: decision D12). -/
def Obligations.DivByZeroEndsRun : Prop :=
  ∀ (rd ra rb : Reg) (s : State), s.reg rb = 0 → ∃ t, exec (.div rd ra rb) s = .next t ∧
    FaultedWith ("error: division by zero at " ++ decUnsigned s.pc ++ ": " ++ render (.div rd ra rb)) s t

/-- R114 (which the spec marks as derived): with one register in all three places `add` doubles it, `sub` gives 0, and
`div` gives 1 unless it holds 0. -/
def Obligations.SameRegisterForms : Prop :=
  ∀ (r : Reg) (s : State),
    (∃ t, exec (.add r r r) s = .next t ∧ t.reg r = 2 * s.reg r) ∧
    (∃ t, exec (.sub r r r) s = .next t ∧ t.reg r = 0) ∧
    (s.reg r ≠ 0 → ∃ t, exec (.div r r r) s = .next t ∧ t.reg r = 1)

/-! ### Trace output -/

/-- R140: `print` appends the disassembly of the slot before the pc, slot 1023 before slot 0, and nothing else (no
prefix: decision D26). -/
def Obligations.PrintEmitsPrecedingSlot : Prop :=
  ∀ s : State, ∃ t, exec .print s = .next t ∧
    t.trace = s.trace ++ [render (s.slot ((s.pc.toNat + 1023) % 1024))] ∧ SameRegs s t ∧ SameSlots s t ∧
    t.status = s.status ∧ t.pc = s.pc + 1

/-- R141, R142: `printr` appends the line of `print` and then the line of all 16 registers in ascending order, the values
signed decimal (order of the lines and separator: decision D10; no prefix: decision D26). -/
def Obligations.PrintrEmitsSlotAndRegisters : Prop :=
  ∀ s : State, ∃ t, exec .printr s = .next t ∧
    t.trace = s.trace ++ [render (s.slot ((s.pc.toNat + 1023) % 1024)),
      "r0: " ++ dec (s.reg 0).toInt ++ ", r1: " ++ dec (s.reg 1).toInt ++ ", r2: " ++ dec (s.reg 2).toInt ++
      ", r3: " ++ dec (s.reg 3).toInt ++ ", r4: " ++ dec (s.reg 4).toInt ++ ", r5: " ++ dec (s.reg 5).toInt ++
      ", r6: " ++ dec (s.reg 6).toInt ++ ", r7: " ++ dec (s.reg 7).toInt ++ ", r8: " ++ dec (s.reg 8).toInt ++
      ", r9: " ++ dec (s.reg 9).toInt ++ ", r10: " ++ dec (s.reg 10).toInt ++ ", r11: " ++ dec (s.reg 11).toInt ++
      ", r12: " ++ dec (s.reg 12).toInt ++ ", r13: " ++ dec (s.reg 13).toInt ++ ", r14: " ++ dec (s.reg 14).toInt ++
      ", r15: " ++ dec (s.reg 15).toInt] ∧
    SameRegs s t ∧ SameSlots s t ∧ t.status = s.status ∧ t.pc = s.pc + 1

/-- R102 (decision D11): the decimal text of an integer reads back as the integer, has a leading `-` exactly when it is
negative, and its digits start with `0` only for zero. -/
def Obligations.DecimalTextReadsBack : Prop :=
  ∀ n : Int, ∃ digits : List Char, (dec n).toList = (if n < 0 then ['-'] else []) ++ digits ∧ digits ≠ [] ∧
    (∀ c ∈ digits, c.isDigit = true) ∧ (digits.head? = some '0' → n = 0 ∧ digits = ['0']) ∧
    digits.foldl (fun acc c => 10 * acc + (c.toNat - '0'.toNat)) 0 = n.natAbs

/-! ### Memory instructions -/

/-- R150: with both addresses in bounds, `copy` stores the whole instruction of the source slot in the destination slot
and changes nothing else but the pc. The address is the register read as unsigned (R63, decision D4). -/
def Obligations.CopyMovesOneSlot : Prop :=
  ∀ (rd rs : Reg) (s : State), s.mem.wf = true → (s.reg rs).toNat < 1024 → (s.reg rd).toNat < 1024 →
    ∃ t, exec (.copy rd rs) s = .next t ∧ t.slot (s.reg rd).toNat = s.slot (s.reg rs).toNat ∧
      SameSlotsBut (s.reg rd).toNat s t ∧ SameRegs s t ∧ SameOutput s t ∧ t.pc = s.pc + 1

/-- R150, R152, R185: `copy` ends the run where an address is out of bounds, the source checked first (decision D7; text:
decision D8; what is left unchanged: decision D12). -/
def Obligations.CopyOutOfBoundsEndsRun : Prop :=
  ∀ (rd rs : Reg) (s : State), ∃ t, exec (.copy rd rs) s = .next t ∧
    (1024 ≤ (s.reg rs).toNat →
      FaultedWith ("error: copy from address " ++ decUnsigned (s.reg rs) ++ " out of bounds") s t) ∧
    ((s.reg rs).toNat < 1024 → 1024 ≤ (s.reg rd).toNat →
      FaultedWith ("error: copy to address " ++ decUnsigned (s.reg rd) ++ " out of bounds") s t)

/-- R150, corner cases: where source and destination are the same slot, the whole of memory is the same data after. -/
def Obligations.CopyOntoItselfKeepsMemory : Prop :=
  ∀ (rd rs : Reg) (s : State), s.mem.wf = true → s.reg rs = s.reg rd → (s.reg rs).toNat < 1024 →
    exec (.copy rd rs) s = .next { s with pc := s.pc + 1 }

/-- R151: with the address in bounds, `write` stores its literal in the slot the register names and changes nothing else
but the pc. The address is the register read as unsigned (R63, decision D4). -/
def Obligations.WriteStoresLiteral : Prop :=
  ∀ (rd : Reg) (ins : Instr) (s : State), s.mem.wf = true → (s.reg rd).toNat < 1024 →
    ∃ t, exec (.write rd ins) s = .next t ∧ t.slot (s.reg rd).toNat = ins ∧ SameSlotsBut (s.reg rd).toNat s t ∧
      SameRegs s t ∧ SameOutput s t ∧ t.pc = s.pc + 1

/-- R151, R152: `write` ends the run where its address is out of bounds (text: decision D8; what is left unchanged:
decision D12). -/
def Obligations.WriteOutOfBoundsEndsRun : Prop :=
  ∀ (rd : Reg) (ins : Instr) (s : State), 1024 ≤ (s.reg rd).toNat → ∃ t, exec (.write rd ins) s = .next t ∧
    FaultedWith ("error: write to address " ++ decUnsigned (s.reg rd) ++ " out of bounds") s t

/-! ### Control transfer -/

/-- R160: `beq` takes the register's 64 bits as the pc where the two registers are equal and advances otherwise. -/
def Obligations.BeqBranchesOnEqual : Prop :=
  ∀ (ra rb rt : Reg) (s : State), ∃ t, exec (.beq ra rb rt) s = .next t ∧ (s.reg ra = s.reg rb → t.pc = s.reg rt) ∧
    (s.reg ra ≠ s.reg rb → t.pc = s.pc + 1) ∧ SameRegs s t ∧ SameSlots s t ∧ SameOutput s t

/-- R161: `bne` takes the register's 64 bits as the pc where the two registers differ and advances otherwise. -/
def Obligations.BneBranchesOnDifferent : Prop :=
  ∀ (ra rb rt : Reg) (s : State), ∃ t, exec (.bne ra rb rt) s = .next t ∧ (s.reg ra ≠ s.reg rb → t.pc = s.reg rt) ∧
    (s.reg ra = s.reg rb → t.pc = s.pc + 1) ∧ SameRegs s t ∧ SameSlots s t ∧ SameOutput s t

/-- R162: `j` takes the pc from its register as it was before the jump and links the address after the jump in r15; for
`j r15` the target is the old r15 (decision D6). -/
def Obligations.JumpLinksReturnAddress : Prop :=
  ∀ (rt : Reg) (s : State), ∃ t, exec (.j rt) s = .next t ∧ t.pc = s.reg rt ∧ t.reg 15 = s.pc + 1 ∧
    SameRegsBut 15 s t ∧ SameSlots s t ∧ SameOutput s t

/-- R163: `rj` adds the signed offset to its own address modulo 2^64 (decision D3), and writes no register. -/
def Obligations.RelativeJumpAddsOffset : Prop :=
  ∀ (rt : Reg) (s : State), ∃ t, exec (.rj rt) s = .next t ∧
    (t.pc.toNat : Int) = ((s.pc.toNat : Int) + (s.reg rt).toInt) % 2 ^ 64 ∧ SameRegs s t ∧ SameSlots s t ∧
    SameOutput s t

/-- R163: from an address in bounds, `rj` stays in bounds exactly when the exact sum does, and the pc is then that
sum. -/
def Obligations.RelativeJumpInBoundsIffSumIs : Prop :=
  ∀ (rt : Reg) (s : State), s.pc.toNat < 1024 → ∃ t, exec (.rj rt) s = .next t ∧
    (t.pc.toNat < 1024 ↔ 0 ≤ (s.pc.toNat : Int) + (s.reg rt).toInt ∧ (s.pc.toNat : Int) + (s.reg rt).toInt < 1024) ∧
    (t.pc.toNat < 1024 → (t.pc.toNat : Int) = (s.pc.toNat : Int) + (s.reg rt).toInt)

/-- R164, R187: `halt` sets HaltedNormally with MSG empty; pc keeps its value (decision D13), as do registers, memory and
trace. -/
def Obligations.HaltEndsNormally : Prop :=
  ∀ s : State, ∃ t, exec .halt s = .next t ∧ t.status = .haltedNormally ∧ t.status.msg = "" ∧ t.pc = s.pc ∧
    SameRegs s t ∧ SameSlots s t ∧ t.trace = s.trace

/-- R188 (text: decision D9; in the halting step: decision D15): the step of a `halt` leaves the line `no output` where
the trace is empty, and the trace as it is otherwise. -/
def Obligations.HaltStepLeavesSentinel : Prop :=
  ∀ s : State, s.status = .running → s.pc.toNat < 1024 → s.slot s.pc.toNat = .halt → ∃ t, step s = .next t ∧
    t.status = .haltedNormally ∧ t.trace = (if s.trace = [] then ["no output"] else s.trace) ∧ t.pc = s.pc ∧
    SameRegs s t ∧ SameSlots s t

/-- R159 and R160 to R163: a taken branch or jump is not checked where it is taken; the instruction after it is the one
at the target, at once, and a target out of bounds ends the run at the next fetch (text: decision D8). -/
def Obligations.TargetCheckedAtNextFetch : Prop :=
  ∀ (s : State) (v : Word), s.status = .running → s.pc.toNat < 1024 → takenTarget s (s.slot s.pc.toNat) = some v →
    ∃ t, step s = .next t ∧ t.pc = v ∧ SameSlots s t ∧ SameOutput s t ∧
      (v.toNat < 1024 → ∃ u, exec (s.slot v.toNat) t = .next u ∧ step t = .next u.endOfRun) ∧
      (1024 ≤ v.toNat → ∃ u, step t = .next u ∧
        FaultedWith ("error: program counter out of bounds: " ++ decUnsigned v) t u)

/-- R165 (which the spec marks as derived; `j r15`: decision D6): a call `j rT` goes to its target and leaves in r15 the
address after the call. From every Running state in which r15 holds that address, wherever the callee has come to, a
taken branch through r15 comes back to it and writes no register, and `j r15` comes back to it and leaves in r15 the
address after itself. -/
def Obligations.CallAndReturn : Prop :=
  ∀ (s : State) (rt : Reg), s.status = .running → s.pc.toNat < 1024 → s.slot s.pc.toNat = .j rt →
    ∃ t, step s = .next t ∧ t.pc = s.reg rt ∧ t.reg 15 = s.pc + 1 ∧ SameRegsBut 15 s t ∧ SameSlots s t ∧
      SameOutput s t ∧
      ∀ u : State, u.status = .running → u.pc.toNat < 1024 → u.reg 15 = s.pc + 1 →
        (∀ ra rb : Reg, (u.slot u.pc.toNat = .beq ra rb 15 ∧ u.reg ra = u.reg rb ∨
            u.slot u.pc.toNat = .bne ra rb 15 ∧ u.reg ra ≠ u.reg rb) →
          ∃ v, step u = .next v ∧ v.pc = s.pc + 1 ∧ v.reg 15 = s.pc + 1 ∧ SameRegs u v ∧ SameSlots u v ∧
            SameOutput u v) ∧
        (u.slot u.pc.toNat = .j 15 → ∃ v, step u = .next v ∧ v.pc = s.pc + 1 ∧ v.reg 15 = u.pc + 1 ∧
          SameRegsBut 15 u v ∧ SameSlots u v ∧ SameOutput u v)

/-! ### Rules about all instructions -/

/-- R23: registers are written only by `mov`, `add`, `sub`, `mul`, `div` (their destination) and `j` (r15). -/
def Obligations.RegistersWrittenOnlyBy : Prop :=
  ∀ (i : Instr) (s t : State) (r : Reg), exec i s = .next t → t.reg r ≠ s.reg r →
    (∃ imm, i = .mov r imm) ∨ (∃ ra rb, i = .add r ra rb) ∨ (∃ ra rb, i = .sub r ra rb) ∨
      (∃ ra rb, i = .mul r ra rb) ∨ (∃ ra rb, i = .div r ra rb) ∨ (∃ rt, i = .j rt ∧ r = 15)

/-- R35, R64, R67: memory is changed only by `copy` and `write`, only in the slot their destination register names, and
to the value they move there. -/
def Obligations.MemoryWrittenOnlyBy : Prop :=
  ∀ (i : Instr) (s t : State) (a : Nat), s.mem.wf = true → exec i s = .next t → t.slot a ≠ s.slot a →
    (∃ rd rs, i = .copy rd rs ∧ a = (s.reg rd).toNat ∧ t.slot a = s.slot (s.reg rs).toNat) ∨
      (∃ rd ins, i = .write rd ins ∧ a = (s.reg rd).toNat ∧ t.slot a = ins)

/-- R31, R36: no instruction reads STATUS or the trace: from two states that differ only there, an instruction leaves the
same registers, pc and memory and appends the same lines. -/
def Obligations.StatusAndTraceNeverRead : Prop :=
  ∀ (i : Instr) (s s' t t' : State), s'.regs = s.regs → s'.pc = s.pc → s'.mem = s.mem → exec i s = .next t →
    exec i s' = .next t' → t'.regs = t.regs ∧ t'.pc = t.pc ∧ t'.mem = t.mem ∧
      ∃ lines, t.trace = s.trace ++ lines ∧ t'.trace = s'.trace ++ lines

/-- R187: only `halt` leads to HaltedNormally, MSG is then empty, and no step leaves that state. -/
def Obligations.HaltedNormallyOnlyByHalt : Prop :=
  (∀ s t : State, step s = .next t → t.status = .haltedNormally → s.pc.toNat < 1024 ∧ s.slot s.pc.toNat = .halt) ∧
    (∀ s : State, ∃ t, exec .halt s = .next t ∧ t.status = .haltedNormally ∧ t.status.msg = "" ∧
      ∀ u, step t ≠ .next u)

/-- R181: the steps that end in HaltedOnError are exactly those of the table: pc out of bounds, `copy` or `write` with an
address out of bounds, `div` with a zero divisor. -/
def Obligations.RuntimeFaultConditions : Prop :=
  ∀ s t : State, step s = .next t → ((∃ m, t.status = .haltedOnError m) ↔ 1024 ≤ s.pc.toNat ∨
    (∃ rd rs, s.slot s.pc.toNat = .copy rd rs ∧ (1024 ≤ (s.reg rs).toNat ∨ 1024 ≤ (s.reg rd).toNat)) ∨
    (∃ rd ins, s.slot s.pc.toNat = .write rd ins ∧ 1024 ≤ (s.reg rd).toNat) ∨
    (∃ rd ra rb, s.slot s.pc.toNat = .div rd ra rb ∧ s.reg rb = 0))

/-- R32, R183, R184 (decisions D12, D27): a step that ends in HaltedOnError appends its message as one line and changes
nothing else. -/
def Obligations.FaultsArePrecise : Prop :=
  ∀ (s t : State) (m : Line), step s = .next t → t.status = .haltedOnError m → FaultedWith m s t

/-! ### Self-modifying code -/

/-- R73, R220: the slot after a `write` or `copy`, written by it, is executed with its new value by the very next step.
(Addresses read as unsigned: decision D4.) -/
def Obligations.NextStepExecutesWrittenSlot : Prop :=
  ∀ (s : State) (rd : Reg) (ins : Instr), s.status = .running → s.pc.toNat < 1023 → s.mem.wf = true →
    (s.reg rd).toNat = s.pc.toNat + 1 →
    (s.slot s.pc.toNat = .write rd ins ∨
      ∃ rs, s.slot s.pc.toNat = .copy rd rs ∧ (s.reg rs).toNat < 1024 ∧ s.slot (s.reg rs).toNat = ins) →
    ∃ t u, step s = .next t ∧ t.status = .running ∧ t.pc = s.pc + 1 ∧ exec ins t = .next u ∧
      step t = .next u.endOfRun

/-- R221 (which the spec marks as derived): a `write` or a `copy` onto its own slot completes; the slot then holds the
literal, or the instruction copied, and a `print` in the next slot renders it (R140; the line has no prefix: decision
D26, log entry 7). Addresses read as unsigned: decision D4. -/
def Obligations.WriteOntoOwnSlot : Prop :=
  ∀ (s : State) (rd : Reg) (ins : Instr), s.status = .running → s.pc.toNat < 1024 → s.mem.wf = true →
    s.reg rd = s.pc →
    (s.slot s.pc.toNat = .write rd ins ∨
      ∃ rs, s.slot s.pc.toNat = .copy rd rs ∧ (s.reg rs).toNat < 1024 ∧ s.slot (s.reg rs).toNat = ins) →
    ∃ t, step s = .next t ∧ t.status = .running ∧ t.pc = s.pc + 1 ∧ t.slot s.pc.toNat = ins ∧
      SameSlotsBut s.pc.toNat s t ∧ SameRegs s t ∧ SameOutput s t ∧
      (s.pc.toNat < 1023 → s.slot (s.pc.toNat + 1) = .print →
        ∃ u, step t = .next u ∧ u.trace = s.trace ++ [render ins])

/-! ### Invariants of runs -/

/-- The invariant (canonical memory; an ended run has a trace; the message of an error halt is the trace's last line;
every line printable, decision D17) holds after reset. -/
def Obligations.InvariantAtReset : Prop := State.reset.Inv

/-- The invariant holds after every LOAD, and ABORT keeps it (R189, R191; decisions D17, D19, D27). -/
def Obligations.InvariantAfterLoadAndAbort : Prop :=
  (∀ (p : List Instr) (s : State), load p = .ok s → s.Inv) ∧ ∀ s : State, s.Inv → s.abort.Inv

/-- Every step keeps the invariant, from every state that has it (R189, R211; decisions D17, D27). -/
def Obligations.StepKeepsInvariant : Prop :=
  ∀ s t : State, s.Inv → step s = .next t → t.Inv

/-- R189: at the end of every run of a loaded program, ABORT included, the trace is not empty, and its last line is MSG
where STATE is HaltedOnError (decisions D15, D19, D27). -/
def Obligations.EndedRunHasFinalLine : Prop :=
  ∀ (p : List Instr) (s t : State), load p = .ok s → Reaches s t → t.status ≠ .running →
    t.trace ≠ [] ∧ ∀ m, t.status = .haltedOnError m → t.trace.getLast? = some m ∧ t.status.msg = m

/-- R36: over every run the trace is append-only: what it held stays its beginning. -/
def Obligations.TraceIsAppendOnly : Prop :=
  ∀ s t : State, Reaches s t → ∃ lines, t.trace = s.trace ++ lines

/-- R75 (which the spec marks as derived): the nesting depth of stored instructions never exceeds, at any point of a run,
the greatest depth present at its start. -/
def Obligations.NestingDepthNeverGrows : Prop :=
  ∀ (s t : State) (d : Nat), s.mem.wf = true → Reaches s t → (∀ a, nestingDepth (s.slot a) ≤ d) →
    ∀ a, nestingDepth (t.slot a) ≤ d

/-- R42, R186 (log entry 13): RUN returns only a halted state, to which steps alone lead from where it started (no ABORT
between them), and more steps do not change what it returns. -/
def Obligations.RunReturnsHaltedState : Prop :=
  ∀ (s t : State) (n k : Nat), runFor n s = some t → t.status ≠ .running ∧ StepsTo s t ∧ runFor (n + k) s = some t

/-- R217, R120 (corner case): with `nop` in every slot from the pc on, there is no implicit halt: the run goes through
them to pc = 1024 and ends there in the out-of-bounds fault (text: decision D8). -/
def Obligations.NoImplicitHaltAtEndOfMemory : Prop :=
  ∀ s : State, s.status = .running → s.pc.toNat ≤ 1024 →
    (∀ a, s.pc.toNat ≤ a → a < 1024 → s.slot a = .nop) →
    ∃ t, runFor (1024 - s.pc.toNat + 1) s = some t ∧ t.pc = 1024 ∧ SameRegs s t ∧ SameSlots s t ∧
      t.status = .haltedOnError "error: program counter out of bounds: 1024" ∧
      t.trace = s.trace ++ ["error: program counter out of bounds: 1024"]

/-- R52, R163 (corner case), R190: `rj` with offset 0 repeats itself for ever: RUN never returns, and the trace is left
unchanged. -/
def Obligations.RelativeJumpByZeroNeverEnds : Prop :=
  ∀ (s : State) (rt : Reg), s.status = .running → s.pc.toNat < 1024 → s.slot s.pc.toNat = .rj rt → s.reg rt = 0 →
    step s = .next s ∧ RunsForever s

/-- R191 (decisions D8, D19): ABORT while Running appends its line and sets HaltedOnError, and changes nothing else; the
run then takes no more steps. -/
def Obligations.AbortEndsRun : Prop :=
  ∀ s : State, s.status = .running → FaultedWith "error: execution cancelled" s s.abort ∧
    ∀ t, step s.abort ≠ .next t
end

