-- ==== Sys2Proof/Laws/Decode.lean ====
section
/-! SUPPORT. The fields of header words, and the words of an immediate. -/

namespace Sys2Proof

/-- A header word as a number: its four fields as hexadecimal digits (rule R88). -/
theorem headerWord_toNat (t a b c : BitVec 4) :
    (headerWord t a b c).toNat = t.toNat * 4096 + a.toNat * 256 + b.toNat * 16 + c.toNat := by
  simp only [headerWord, BitVec.toNat_append]
  have ha := a.isLt
  have hb := b.isLt
  have hc := c.isLt
  rw [← Nat.shiftLeft_add_eq_or_of_lt ha, ← Nat.shiftLeft_add_eq_or_of_lt hb, ← Nat.shiftLeft_add_eq_or_of_lt hc]
  simp only [Nat.shiftLeft_eq]
  omega

theorem tagField_toNat (w : HalfWord) : (tagField w).toNat = w.toNat / 4096 % 16 := by
  simp [tagField, BitVec.extractLsb'_toNat, Nat.shiftRight_eq_div_pow]

theorem field1_toNat (w : HalfWord) : (field1 w).toNat = w.toNat / 256 % 16 := by
  simp [field1, BitVec.extractLsb'_toNat, Nat.shiftRight_eq_div_pow]

theorem field2_toNat (w : HalfWord) : (field2 w).toNat = w.toNat / 16 % 16 := by
  simp [field2, BitVec.extractLsb'_toNat, Nat.shiftRight_eq_div_pow]

theorem field3_toNat (w : HalfWord) : (field3 w).toNat = w.toNat % 16 := by
  simp [field3, BitVec.extractLsb'_toNat]

@[simp] theorem tagField_headerWord (t a b c : BitVec 4) : tagField (headerWord t a b c) = t := by
  apply BitVec.eq_of_toNat_eq
  rw [tagField_toNat, headerWord_toNat]
  have := t.isLt; have := a.isLt; have := b.isLt; have := c.isLt
  omega

@[simp] theorem field1_headerWord (t a b c : BitVec 4) : field1 (headerWord t a b c) = a := by
  apply BitVec.eq_of_toNat_eq
  rw [field1_toNat, headerWord_toNat]
  have := t.isLt; have := a.isLt; have := b.isLt; have := c.isLt
  omega

@[simp] theorem field2_headerWord (t a b c : BitVec 4) : field2 (headerWord t a b c) = b := by
  apply BitVec.eq_of_toNat_eq
  rw [field2_toNat, headerWord_toNat]
  have := t.isLt; have := a.isLt; have := b.isLt; have := c.isLt
  omega

@[simp] theorem field3_headerWord (t a b c : BitVec 4) : field3 (headerWord t a b c) = c := by
  apply BitVec.eq_of_toNat_eq
  rw [field3_toNat, headerWord_toNat]
  have := t.isLt; have := a.isLt; have := b.isLt; have := c.isLt
  omega

/-- Every 16-bit word is the header word of its fields. -/
theorem headerWord_fields (w : HalfWord) : headerWord (tagField w) (field1 w) (field2 w) (field3 w) = w := by
  apply BitVec.eq_of_toNat_eq
  rw [headerWord_toNat, tagField_toNat, field1_toNat, field2_toNat, field3_toNat]
  have := w.isLt
  omega

/-- The words of an immediate give it back. -/
@[simp] theorem immOfWords_immWords (imm : Word) :
    immOfWords (imm.extractLsb' 48 16) (imm.extractLsb' 32 16) (imm.extractLsb' 16 16) (imm.extractLsb' 0 16) = imm := by
  unfold immOfWords
  rw [BitVec.extractLsb'_append_extractLsb'_eq_extractLsb' (by omega),
    BitVec.extractLsb'_append_extractLsb'_eq_extractLsb' (by omega),
    BitVec.extractLsb'_append_extractLsb'_eq_extractLsb' (by omega)]
  simp

/-- An immediate's words are the words it was put together from. -/
@[simp] theorem immWords_immOfWords (w3 w2 w1 w0 : HalfWord) : immWords (immOfWords w3 w2 w1 w0) = [w3, w2, w1, w0] := by
  have hn : (immOfWords w3 w2 w1 w0).toNat = w3.toNat * 2 ^ 48 + w2.toNat * 2 ^ 32 + w1.toNat * 2 ^ 16 + w0.toNat := by
    simp only [immOfWords, BitVec.toNat_append]
    have h2 := w2.isLt; have h1 := w1.isLt; have h0 := w0.isLt
    rw [← Nat.shiftLeft_add_eq_or_of_lt (by omega), ← Nat.shiftLeft_add_eq_or_of_lt (by omega),
      ← Nat.shiftLeft_add_eq_or_of_lt (by omega)]
    simp only [Nat.shiftLeft_eq]
    omega
  have h3 := w3.isLt; have h2 := w2.isLt; have h1 := w1.isLt; have h0 := w0.isLt
  simp only [immWords, List.cons.injEq, and_true]
  refine ⟨?_, ?_, ?_, ?_⟩ <;> apply BitVec.eq_of_toNat_eq <;>
    rw [BitVec.extractLsb'_toNat, hn, Nat.shiftRight_eq_div_pow] <;> omega

/-- `requireZero` accepts exactly where the unused fields are zero. -/
theorem requireZero_eq_ok {w : HalfWord} {unused : List (BitVec 4)} {m m' : HeaderMeaning} :
    requireZero w unused m = .ok m' ↔ (∀ f ∈ unused, f = 0) ∧ m = m' := by
  unfold requireZero
  split
  · next h =>
    have hz : ∀ f ∈ unused, f = 0 := by simpa using h
    exact ⟨fun he => ⟨hz, by cases he; rfl⟩, fun he => by rw [he.2]⟩
  · next h =>
    simp only [reduceCtorEq, false_iff, not_and]
    intro hz
    exact absurd (by simpa using hz) h

/-- Every instruction is serialised as its header word and then its payload. -/
theorem encode_eq_cons (i : Instr) : ∃ payload, encode i = headerOf i :: payload := by
  cases i <;> exact ⟨_, rfl⟩

end Sys2Proof
end

