-- ==== Sys2Proof/Laws/State.lean ====
section
/-! SUPPORT. Field lemmas: what each update of the state does to each field, and what reading a register gives after
each update. Later proofs use these instead of unfolding a record update. -/

namespace Sys2Proof.Machine

variable (s : State)

/-! ### setReg -/

@[simp] theorem State.setReg_pc (r : Reg) (v : Word) : (s.setReg r v).pc = s.pc := rfl
@[simp] theorem State.setReg_mem (r : Reg) (v : Word) : (s.setReg r v).mem = s.mem := rfl
@[simp] theorem State.setReg_trace (r : Reg) (v : Word) : (s.setReg r v).trace = s.trace := rfl
@[simp] theorem State.setReg_status (r : Reg) (v : Word) : (s.setReg r v).status = s.status := rfl
@[simp] theorem State.setReg_slot (r : Reg) (v : Word) (a : Nat) : (s.setReg r v).slot a = s.slot a := rfl

/-- Read after write: the register written holds the value, every other keeps its own. -/
@[simp] theorem State.reg_setReg (r q : Reg) (v : Word) : (s.setReg r v).reg q = if q = r then v else s.reg q := by
  simp only [State.reg, State.setReg, Vector.getElem_set, BitVec.toNat_inj, eq_comm]

/-! ### setPc, advance -/

@[simp] theorem State.setPc_regs (v : Word) : (s.setPc v).regs = s.regs := rfl
@[simp] theorem State.setPc_pc (v : Word) : (s.setPc v).pc = v := rfl
@[simp] theorem State.setPc_mem (v : Word) : (s.setPc v).mem = s.mem := rfl
@[simp] theorem State.setPc_trace (v : Word) : (s.setPc v).trace = s.trace := rfl
@[simp] theorem State.setPc_status (v : Word) : (s.setPc v).status = s.status := rfl
@[simp] theorem State.setPc_reg (v : Word) (r : Reg) : (s.setPc v).reg r = s.reg r := rfl
@[simp] theorem State.setPc_slot (v : Word) (a : Nat) : (s.setPc v).slot a = s.slot a := rfl

@[simp] theorem State.advance_regs : s.advance.regs = s.regs := rfl
@[simp] theorem State.advance_pc : s.advance.pc = s.pc + 1 := rfl
@[simp] theorem State.advance_mem : s.advance.mem = s.mem := rfl
@[simp] theorem State.advance_trace : s.advance.trace = s.trace := rfl
@[simp] theorem State.advance_status : s.advance.status = s.status := rfl
@[simp] theorem State.advance_reg (r : Reg) : s.advance.reg r = s.reg r := rfl
@[simp] theorem State.advance_slot (a : Nat) : s.advance.slot a = s.slot a := rfl

/-! ### setSlot -/

@[simp] theorem State.setSlot_regs (a : Nat) (i : Instr) : (s.setSlot a i).regs = s.regs := rfl
@[simp] theorem State.setSlot_pc (a : Nat) (i : Instr) : (s.setSlot a i).pc = s.pc := rfl
@[simp] theorem State.setSlot_mem (a : Nat) (i : Instr) : (s.setSlot a i).mem = s.mem.write a i := rfl
@[simp] theorem State.setSlot_trace (a : Nat) (i : Instr) : (s.setSlot a i).trace = s.trace := rfl
@[simp] theorem State.setSlot_status (a : Nat) (i : Instr) : (s.setSlot a i).status = s.status := rfl
@[simp] theorem State.setSlot_reg (a : Nat) (i : Instr) (r : Reg) : (s.setSlot a i).reg r = s.reg r := rfl

/-! ### emit, setStatus, raise, haltNormally -/

@[simp] theorem State.emit_regs (l : Line) : (s.emit l).regs = s.regs := rfl
@[simp] theorem State.emit_pc (l : Line) : (s.emit l).pc = s.pc := rfl
@[simp] theorem State.emit_mem (l : Line) : (s.emit l).mem = s.mem := rfl
@[simp] theorem State.emit_trace (l : Line) : (s.emit l).trace = s.trace ++ [l] := rfl
@[simp] theorem State.emit_status (l : Line) : (s.emit l).status = s.status := rfl
@[simp] theorem State.emit_reg (l : Line) (r : Reg) : (s.emit l).reg r = s.reg r := rfl
@[simp] theorem State.emit_slot (l : Line) (a : Nat) : (s.emit l).slot a = s.slot a := rfl

@[simp] theorem State.setStatus_regs (st : Status) : (s.setStatus st).regs = s.regs := rfl
@[simp] theorem State.setStatus_pc (st : Status) : (s.setStatus st).pc = s.pc := rfl
@[simp] theorem State.setStatus_mem (st : Status) : (s.setStatus st).mem = s.mem := rfl
@[simp] theorem State.setStatus_trace (st : Status) : (s.setStatus st).trace = s.trace := rfl
@[simp] theorem State.setStatus_status (st : Status) : (s.setStatus st).status = st := rfl
@[simp] theorem State.setStatus_reg (st : Status) (r : Reg) : (s.setStatus st).reg r = s.reg r := rfl
@[simp] theorem State.setStatus_slot (st : Status) (a : Nat) : (s.setStatus st).slot a = s.slot a := rfl

@[simp] theorem State.raise_regs (f : RuntimeFault) : (s.raise f).regs = s.regs := rfl
@[simp] theorem State.raise_pc (f : RuntimeFault) : (s.raise f).pc = s.pc := rfl
@[simp] theorem State.raise_mem (f : RuntimeFault) : (s.raise f).mem = s.mem := rfl
@[simp] theorem State.raise_trace (f : RuntimeFault) : (s.raise f).trace = s.trace ++ [f.message] := rfl
@[simp] theorem State.raise_status (f : RuntimeFault) : (s.raise f).status = .haltedOnError f.message := rfl
@[simp] theorem State.raise_reg (f : RuntimeFault) (r : Reg) : (s.raise f).reg r = s.reg r := rfl
@[simp] theorem State.raise_slot (f : RuntimeFault) (a : Nat) : (s.raise f).slot a = s.slot a := rfl

@[simp] theorem State.haltNormally_regs : s.haltNormally.regs = s.regs := rfl
@[simp] theorem State.haltNormally_pc : s.haltNormally.pc = s.pc := rfl
@[simp] theorem State.haltNormally_mem : s.haltNormally.mem = s.mem := rfl
@[simp] theorem State.haltNormally_trace : s.haltNormally.trace = s.trace := rfl
@[simp] theorem State.haltNormally_status : s.haltNormally.status = .haltedNormally := rfl
@[simp] theorem State.haltNormally_reg (r : Reg) : s.haltNormally.reg r = s.reg r := rfl
@[simp] theorem State.haltNormally_slot (a : Nat) : s.haltNormally.slot a = s.slot a := rfl

/-! ### The shared shapes of meanings -/

@[simp] theorem State.emitPrevSlot_regs : s.emitPrevSlot.regs = s.regs := rfl
@[simp] theorem State.emitPrevSlot_pc : s.emitPrevSlot.pc = s.pc := rfl
@[simp] theorem State.emitPrevSlot_mem : s.emitPrevSlot.mem = s.mem := rfl
@[simp] theorem State.emitPrevSlot_trace : s.emitPrevSlot.trace = s.trace ++ [render (s.slot s.prevSlot)] := rfl
@[simp] theorem State.emitPrevSlot_status : s.emitPrevSlot.status = s.status := rfl
@[simp] theorem State.emitPrevSlot_reg (r : Reg) : s.emitPrevSlot.reg r = s.reg r := rfl
@[simp] theorem State.emitPrevSlot_slot (a : Nat) : s.emitPrevSlot.slot a = s.slot a := rfl

@[simp] theorem State.writeResult_pc (rd : Reg) (n : Int) : (s.writeResult rd n).pc = s.pc + 1 := rfl
@[simp] theorem State.writeResult_mem (rd : Reg) (n : Int) : (s.writeResult rd n).mem = s.mem := rfl
@[simp] theorem State.writeResult_trace (rd : Reg) (n : Int) : (s.writeResult rd n).trace = s.trace := rfl
@[simp] theorem State.writeResult_status (rd : Reg) (n : Int) : (s.writeResult rd n).status = s.status := rfl
@[simp] theorem State.writeResult_slot (rd : Reg) (n : Int) (a : Nat) : (s.writeResult rd n).slot a = s.slot a := rfl
@[simp] theorem State.reg_writeResult (rd q : Reg) (n : Int) :
    (s.writeResult rd n).reg q = if q = rd then wrap64 n else s.reg q := by
  simp [State.writeResult]

@[simp] theorem State.branch_regs (b : Bool) (rt : Reg) : (s.branch b rt).regs = s.regs := by cases b <;> rfl
@[simp] theorem State.branch_mem (b : Bool) (rt : Reg) : (s.branch b rt).mem = s.mem := by cases b <;> rfl
@[simp] theorem State.branch_trace (b : Bool) (rt : Reg) : (s.branch b rt).trace = s.trace := by cases b <;> rfl
@[simp] theorem State.branch_status (b : Bool) (rt : Reg) : (s.branch b rt).status = s.status := by cases b <;> rfl
@[simp] theorem State.branch_reg (b : Bool) (rt r : Reg) : (s.branch b rt).reg r = s.reg r := by cases b <;> rfl
@[simp] theorem State.branch_slot (b : Bool) (rt : Reg) (a : Nat) : (s.branch b rt).slot a = s.slot a := by
  cases b <;> rfl
@[simp] theorem State.branch_pc (b : Bool) (rt : Reg) :
    (s.branch b rt).pc = if b = true then s.reg rt else s.pc + 1 := by cases b <;> rfl

/-! ### Reading operands -/

@[simp] theorem State.dataOperand_eq (r : Reg) : s.dataOperand r = (s.reg r).toInt := rfl
@[simp] theorem State.addrOperand_eq (r : Reg) : s.addrOperand r = (s.reg r).toNat := rfl
@[simp] theorem State.targetOperand_eq (r : Reg) : s.targetOperand r = s.reg r := rfl
@[simp] theorem State.offsetOperand_eq (r : Reg) : s.offsetOperand r = (s.reg r).toInt := rfl
@[simp] theorem State.nextPc_eq : s.nextPc = s.pc + 1 := rfl
@[simp] theorem State.regsEqual_eq_true (ra rb : Reg) : s.regsEqual ra rb = true ↔ s.reg ra = s.reg rb := by
  simp [State.regsEqual]
@[simp] theorem State.regsEqual_eq_false (ra rb : Reg) : s.regsEqual ra rb = false ↔ s.reg ra ≠ s.reg rb := by
  simp [State.regsEqual]
theorem State.fetch_eq : s.fetch = s.slot s.pc.toNat := rfl
theorem State.prevSlot_eq : s.prevSlot = (s.pc.toNat + 1023) % 1024 := rfl
@[simp] theorem inBounds_eq_true (a : Nat) : inBounds a = true ↔ a < 1024 := by simp [inBounds]
@[simp] theorem inBounds_eq_false (a : Nat) : inBounds a = false ↔ 1024 ≤ a := by simp [inBounds]

/-- Two states with the same registers, read one by one, have the same register file. -/
theorem State.regs_ext (s t : State) (h : ∀ r, t.reg r = s.reg r) : t.regs = s.regs := by
  apply Vector.ext
  intro i hi
  have := h (BitVec.ofNat 4 i)
  simpa [State.reg, Nat.mod_eq_of_lt hi] using this

/-! ### The narrowing of results -/

/-- `wrap64 n` is the value congruent to `n` modulo 2^64 (rule R11). -/
theorem wrap64_toNat (n : Int) : ((wrap64 n).toNat : Int) = n % 2 ^ 64 := by
  simp only [wrap64, BitVec.toNat_ofInt]
  omega

/-- The value is the only one. -/
theorem eq_wrap64_of_toNat (v : Word) (n : Int) (h : (v.toNat : Int) = n % 2 ^ 64) : v = wrap64 n := by
  apply BitVec.eq_of_toNat_eq
  have := wrap64_toNat n
  omega

/-- Narrowing a value read as signed gives the value back. -/
@[simp] theorem wrap64_toInt (v : Word) : wrap64 v.toInt = v := by simp [wrap64]

/-- On the signed readings of two words, exact addition and narrowing is addition of words; so for the difference and
the product. -/
theorem wrap64_add (a b : Word) : wrap64 (a.toInt + b.toInt) = a + b := by simp [wrap64, BitVec.ofInt_add]
theorem wrap64_sub (a b : Word) : wrap64 (a.toInt - b.toInt) = a - b := by
  apply BitVec.eq_of_toInt_eq
  simp [wrap64, BitVec.toInt_sub]
theorem wrap64_mul (a b : Word) : wrap64 (a.toInt * b.toInt) = a * b := by simp [wrap64, BitVec.ofInt_mul]

/-- The sum of `rj`, an unsigned base and a signed offset, is addition of words too. -/
theorem wrap64_add_offset (a b : Word) : wrap64 ((a.toNat : Int) + b.toInt) = a + b := by
  have ha := BitVec.toInt_eq_toNat_cond a
  rw [← wrap64_add]
  symm
  apply eq_wrap64_of_toNat
  rw [wrap64_toNat, ha]
  split <;> omega

end Sys2Proof.Machine
end

