-- ==== Sys2Proof/Laws/Memory.lean ====
section
/-! SUPPORT. The laws of the instruction memory: read after write, the canonical form and that every operation keeps it,
and that memories in canonical form that read the same are the same data. -/

namespace Sys2Proof.Machine

/-! ### Reading -/

@[simp] theorem Memory.read_nil (a : Nat) : Memory.read [] a = .nop := rfl

theorem Memory.read_cons_pair (a b : Nat) (i : Instr) (m : Memory) :
    Memory.read ((b, i) :: m) a = if a = b then i else Memory.read m a := rfl

/-- Below the first slot of a canonical memory every slot reads `nop`. -/
theorem Memory.read_below (m : Memory) : ∀ (lo a : Nat), Memory.wfFrom lo m = true → a < lo → m.read a = .nop := by
  induction m with
  | nil => intros; rfl
  | cons p m ih =>
    obtain ⟨b, k⟩ := p
    intro lo a h hlt
    simp only [Memory.wfFrom, Bool.and_eq_true, decide_eq_true_eq] at h
    rw [Memory.read_cons_pair, if_neg (by omega)]
    exact ih (b + 1) a h.2 (by omega)

/-- Beyond the last slot every slot reads `nop`. -/
theorem Memory.read_outside (m : Memory) : ∀ (lo a : Nat), Memory.wfFrom lo m = true → 1024 ≤ a → m.read a = .nop := by
  induction m with
  | nil => intros; rfl
  | cons p m ih =>
    obtain ⟨b, k⟩ := p
    intro lo a h ha
    simp only [Memory.wfFrom, Config.memSlots, Bool.and_eq_true, decide_eq_true_eq] at h
    rw [Memory.read_cons_pair, if_neg (by omega)]
    exact ih (b + 1) a h.2 ha

/-- A canonical memory from a slot on is one from any earlier slot on. -/
theorem Memory.wfFrom_mono (m : Memory) (lo lo' : Nat) (hle : lo' ≤ lo) (h : Memory.wfFrom lo m = true) :
    Memory.wfFrom lo' m = true := by
  cases m with
  | nil => rfl
  | cons p m =>
    obtain ⟨b, k⟩ := p
    simp only [Memory.wfFrom, Bool.and_eq_true, decide_eq_true_eq] at h ⊢
    exact ⟨⟨⟨by omega, h.1.1.2⟩, h.1.2⟩, h.2⟩

/-! ### Putting a slot in front -/

theorem Memory.read_cons (m : Memory) (a b : Nat) (i : Instr) (h : Memory.wfFrom (b + 1) m = true) :
    (Memory.cons b i m).read a = if a = b then i else m.read a := by
  unfold Memory.cons
  split
  · next hi =>
    split
    · next hab => subst hab; rw [Memory.read_below m (a + 1) a h (by omega), hi]; rfl
    · rfl
  · rfl

theorem Memory.wfFrom_cons (m : Memory) (lo b : Nat) (i : Instr) (hlo : lo ≤ b) (hb : b < 1024)
    (h : Memory.wfFrom (b + 1) m = true) : Memory.wfFrom lo (Memory.cons b i m) = true := by
  unfold Memory.cons
  split
  · exact Memory.wfFrom_mono m (b + 1) lo (by omega) h
  · next hi => simp [Memory.wfFrom, hlo, hb, hi, h]

/-! ### Writing -/

/-- Read after write: the slot written holds the value, every other slot keeps its own (rules R67, R71). -/
theorem Memory.read_write_from (m : Memory) : ∀ (lo a b : Nat) (i : Instr), Memory.wfFrom lo m = true →
    (m.write b i).read a = if a = b then i else m.read a := by
  induction m with
  | nil => intro lo a b i _; exact Memory.read_cons [] a b i rfl
  | cons p m ih =>
    obtain ⟨c, k⟩ := p
    intro lo a b i h
    have hm : Memory.wfFrom (c + 1) m = true := by
      simp only [Memory.wfFrom, Bool.and_eq_true] at h; exact h.2
    simp only [Memory.write]
    split
    · next hlt =>
      refine Memory.read_cons _ a b i ?_
      simp only [Memory.wfFrom, Bool.and_eq_true, decide_eq_true_eq] at h ⊢
      exact ⟨⟨⟨by omega, h.1.1.2⟩, h.1.2⟩, h.2⟩
    · split
      · next hbc =>
        subst hbc
        rw [Memory.read_cons m a b i hm, Memory.read_cons_pair]
        split <;> rfl
      · next hbc =>
        rw [Memory.read_cons_pair, Memory.read_cons_pair, ih (c + 1) a b i hm]
        by_cases hac : a = c
        · rw [if_pos hac, if_pos hac, if_neg (by omega)]
        · rw [if_neg hac, if_neg hac]

theorem Memory.read_write (m : Memory) (h : m.wf = true) (a b : Nat) (i : Instr) :
    (m.write b i).read a = if a = b then i else m.read a := Memory.read_write_from m 0 a b i h

theorem Memory.wfFrom_write (m : Memory) : ∀ (lo b : Nat) (i : Instr), lo ≤ b → b < 1024 → Memory.wfFrom lo m = true →
    Memory.wfFrom lo (m.write b i) = true := by
  induction m with
  | nil => intro lo b i hlo hb _; exact Memory.wfFrom_cons [] lo b i hlo hb rfl
  | cons p m ih =>
    obtain ⟨c, k⟩ := p
    intro lo b i hlo hb h
    have h' := h
    simp only [Memory.wfFrom, Bool.and_eq_true, decide_eq_true_eq] at h
    simp only [Memory.write]
    split
    · next hlt =>
      refine Memory.wfFrom_cons _ lo b i hlo hb ?_
      simp only [Memory.wfFrom, Bool.and_eq_true, decide_eq_true_eq]
      exact ⟨⟨⟨by omega, h.1.1.2⟩, h.1.2⟩, h.2⟩
    · split
      · next hbc => exact Memory.wfFrom_cons m lo b i hlo hb (hbc ▸ h.2)
      · next hlt hbc =>
        simp only [Memory.wfFrom, Bool.and_eq_true, decide_eq_true_eq]
        exact ⟨⟨⟨h.1.1.1, h.1.1.2⟩, h.1.2⟩, ih (c + 1) b i (by omega) hb h.2⟩

/-- Writing a slot of the memory keeps the canonical form. -/
theorem Memory.wf_write (m : Memory) (b : Nat) (i : Instr) (hb : b < 1024) (h : m.wf = true) : (m.write b i).wf = true :=
  Memory.wfFrom_write m 0 b i (Nat.zero_le b) hb h

/-! ### Equal memories are equal data -/

theorem Memory.ext_from (m : Memory) : ∀ (n : Memory) (lo : Nat), Memory.wfFrom lo m = true → Memory.wfFrom lo n = true →
    (∀ a, m.read a = n.read a) → m = n := by
  induction m with
  | nil =>
    intro n lo _ hn heq
    cases n with
    | nil => rfl
    | cons q n =>
      obtain ⟨c, k⟩ := q
      simp only [Memory.wfFrom, Bool.and_eq_true, decide_eq_true_eq] at hn
      have := heq c
      rw [Memory.read_nil, Memory.read_cons_pair, if_pos rfl] at this
      exact absurd this.symm hn.1.2
  | cons p m ih =>
    obtain ⟨b, i⟩ := p
    intro n lo hm hn heq
    simp only [Memory.wfFrom, Bool.and_eq_true, decide_eq_true_eq] at hm
    cases n with
    | nil =>
      have := heq b
      rw [Memory.read_nil, Memory.read_cons_pair, if_pos rfl] at this
      exact absurd this hm.1.2
    | cons q n =>
      obtain ⟨c, k⟩ := q
      simp only [Memory.wfFrom, Bool.and_eq_true, decide_eq_true_eq] at hn
      have hb := heq b
      have hc := heq c
      simp only [Memory.read_cons_pair, if_pos] at hb hc
      have hbc : b = c := by
        rcases Nat.lt_trichotomy b c with h | h | h
        · rw [if_neg (by omega), Memory.read_below n (c + 1) b hn.2 (by omega)] at hb
          exact absurd hb hm.1.2
        · exact h
        · rw [if_neg (by omega), Memory.read_below m (b + 1) c hm.2 (by omega)] at hc
          exact absurd hc.symm hn.1.2
      subst hbc
      rw [if_pos rfl] at hb
      subst hb
      have hmn : m = n := by
        refine ih n (b + 1) hm.2 hn.2 fun a => ?_
        rcases Nat.lt_or_ge b a with h | h
        · have := heq a
          rwa [Memory.read_cons_pair, Memory.read_cons_pair, if_neg (by omega), if_neg (by omega)] at this
        · rw [Memory.read_below m (b + 1) a hm.2 (by omega), Memory.read_below n (b + 1) a hn.2 (by omega)]
      rw [hmn]

/-- Two memories in canonical form that read the same everywhere are the same data. -/
theorem Memory.ext (m n : Memory) (hm : m.wf = true) (hn : n.wf = true) (h : ∀ a, m.read a = n.read a) : m = n :=
  Memory.ext_from m n 0 hm hn h

/-- Writing to a slot what it holds changes nothing. -/
theorem Memory.write_read_self (m : Memory) (h : m.wf = true) (a : Nat) (ha : a < 1024) : m.write a (m.read a) = m := by
  refine Memory.ext _ _ (Memory.wf_write m a _ ha h) h fun b => ?_
  rw [Memory.read_write m h b a]
  split
  · next hb => rw [hb]
  · rfl

/-! ### The memory that LOAD builds -/

theorem Memory.wfFrom_place (p : List Instr) : ∀ a, a + p.length ≤ 1024 → Memory.wfFrom a (Memory.place a p) = true := by
  induction p with
  | nil => intros; rfl
  | cons i p ih =>
    intro a ha
    rw [List.length_cons] at ha
    exact Memory.wfFrom_cons _ a a i (Nat.le_refl a) (by omega) (ih (a + 1) (by omega))

theorem Memory.read_place (p : List Instr) : ∀ a b, a + p.length ≤ 1024 →
    (Memory.place a p).read b = if a ≤ b then (p[b - a]?).getD .nop else .nop := by
  induction p with
  | nil => intro a b _; simp [Memory.place]
  | cons i p ih =>
    intro a b ha
    rw [List.length_cons] at ha
    rw [Memory.place, Memory.read_cons _ b a i (Memory.wfFrom_place p (a + 1) (by omega)), ih (a + 1) b (by omega)]
    rcases Nat.lt_trichotomy a b with h | h | h
    · have : b - a = (b - (a + 1)) + 1 := by omega
      rw [if_neg (by omega), if_pos (by omega), if_pos (by omega), this, List.getElem?_cons_succ]
    · subst h; simp
    · rw [if_neg (by omega), if_neg (by omega), if_neg (by omega)]

/-- LOAD's memory is in canonical form. -/
theorem Memory.wf_ofProgram (p : List Instr) (h : p.length ≤ 1024) : (Memory.ofProgram p).wf = true :=
  Memory.wfFrom_place p 0 (by omega)

/-- LOAD's memory holds the program, then `nop` (rule R211). -/
theorem Memory.read_ofProgram (p : List Instr) (h : p.length ≤ 1024) (a : Nat) :
    (Memory.ofProgram p).read a = (p[a]?).getD .nop := by
  rw [Memory.ofProgram, Memory.read_place p 0 a (by omega), if_pos (Nat.zero_le a), Nat.sub_zero]

/-! ### Slots of the state -/

/-- Reading a slot after a write through the state. -/
theorem State.slot_setSlot (s : State) (h : s.mem.wf = true) (a b : Nat) (i : Instr) :
    (s.setSlot b i).slot a = if a = b then i else s.slot a := Memory.read_write s.mem h a b i

end Sys2Proof.Machine
end

