-- ==== Sys2Proof/Laws/Render.lean ====
section
/-! SUPPORT. The texts the engine produces are lines of printable ASCII characters (decision D17). -/

namespace Sys2Proof.Machine

/-- Appending keeps a line printable, and only printable parts give a printable line. -/
@[simp] theorem printableLine_append (a b : Line) :
    printableLine (a ++ b) = (printableLine a && printableLine b) := by
  simp [printableLine, String.toList_append, List.all_append]

theorem printable_of_isDigit (c : Char) (h : c.isDigit = true) : 32 ≤ c.toNat ∧ c.toNat ≤ 126 := by
  simp only [Char.isDigit, Bool.and_eq_true, decide_eq_true_eq] at h
  have h1 : (48 : Nat) ≤ c.val.toNat := by simpa using UInt32.le_iff_toNat_le.mp h.1
  have h2 : c.val.toNat ≤ 57 := by simpa using UInt32.le_iff_toNat_le.mp h.2
  exact ⟨by simp only [Char.toNat]; omega, by simp only [Char.toNat]; omega⟩

@[simp] theorem printableLine_natRepr (n : Nat) : printableLine (Nat.repr n) = true := by
  simp only [printableLine, Nat.repr, String.toList_ofList, List.all_eq_true, Bool.and_eq_true, decide_eq_true_eq]
  intro c hc
  exact printable_of_isDigit c (Nat.isDigit_of_mem_toDigits (by omega) (by omega) hc)

@[simp] theorem printableLine_dec (n : Int) : printableLine (dec n) = true := by
  unfold dec
  split
  · rw [printableLine_append, printableLine_natRepr]; decide
  · exact printableLine_natRepr _

@[simp] theorem printableLine_decSigned (w : Word) : printableLine (decSigned w) = true := printableLine_dec _
@[simp] theorem printableLine_decUnsigned (w : Word) : printableLine (decUnsigned w) = true := printableLine_dec _

@[simp] theorem printableLine_regName (r : Reg) : printableLine (regName r) = true := by
  rw [regName, printableLine_append, printableLine_dec]; decide

theorem printableLine_renderRRR (m : Line) (h : printableLine m = true) (a b c : Reg) :
    printableLine (renderRRR m a b c) = true := by
  have hs : printableLine " " = true := by simp [printableLine]
  have hc : printableLine ", " = true := by simp [printableLine]
  simp [renderRRR, h, hs, hc]

/-- Every disassembly is printable, to any depth of nesting. -/
@[simp] theorem printableLine_render (i : Instr) : printableLine (render i) = true := by
  have hs : printableLine ", " = true := by simp [printableLine]
  have hb : printableLine ", [" = true := by simp [printableLine]
  have he : printableLine "]" = true := by simp [printableLine]
  induction i with
  | nop | print | printr | halt => decide
  | mov rd imm =>
    have hm : printableLine "mov " = true := by simp [printableLine]
    simp [render, hm, hs]
  | add | sub | mul | div | beq | bne => exact printableLine_renderRRR _ (by decide) _ _ _
  | copy rd rs =>
    have hm : printableLine "copy " = true := by simp [printableLine]
    simp [render, hm, hs]
  | j rt =>
    have hm : printableLine "j " = true := by simp [printableLine]
    simp [render, hm]
  | rj rt =>
    have hm : printableLine "rj " = true := by simp [printableLine]
    simp [render, hm]
  | write rd ins ih =>
    have hm : printableLine "write " = true := by simp [printableLine]
    simp [render, hm, hb, he, ih]

theorem printableLine_intercalate (sep : Line) (hs : printableLine sep = true) (ls : List Line)
    (h : ∀ l ∈ ls, printableLine l = true) : printableLine (sep.intercalate ls) = true := by
  induction ls with
  | nil => simp [printableLine]
  | cons l ls ih =>
    have hl := h l List.mem_cons_self
    cases ls with
    | nil => rw [String.intercalate_singleton]; exact hl
    | cons k ls =>
      rw [String.intercalate_cons_cons, printableLine_append, printableLine_append, hl, hs,
        ih fun x hx => h x (List.mem_cons_of_mem l hx)]
      rfl

@[simp] theorem printableLine_regDump (regs : Vector Word 16) : printableLine (regDump regs) = true := by
  refine printableLine_intercalate _ (by simp [printableLine, regDumpSeparator]) _ fun l hl => ?_
  obtain ⟨i, -, rfl⟩ := List.mem_map.mp hl
  have hr : printableLine "r" = true := by simp [printableLine]
  have hc : printableLine ": " = true := by simp [printableLine]
  simp [regPair, hr, hc]

@[simp] theorem printableLine_noOutputLine : printableLine noOutputLine = true := by
  simp [printableLine, noOutputLine]

/-! ### The message of each runtime fault (rule R182) -/

theorem message_pcOutOfBounds (w : Word) :
    (RuntimeFault.pcOutOfBounds w).message = "error: program counter out of bounds: " ++ decUnsigned w := rfl
theorem message_copyFromOutOfBounds (w : Word) :
    (RuntimeFault.copyFromOutOfBounds w).message = "error: copy from address " ++ decUnsigned w ++ " out of bounds" := rfl
theorem message_copyToOutOfBounds (w : Word) :
    (RuntimeFault.copyToOutOfBounds w).message = "error: copy to address " ++ decUnsigned w ++ " out of bounds" := rfl
theorem message_writeOutOfBounds (w : Word) :
    (RuntimeFault.writeOutOfBounds w).message = "error: write to address " ++ decUnsigned w ++ " out of bounds" := rfl
theorem message_divByZero (w : Word) (l : Line) :
    (RuntimeFault.divByZero w l).message = "error: division by zero at " ++ decUnsigned w ++ ": " ++ l := rfl
theorem message_aborted : RuntimeFault.aborted.message = "error: execution cancelled" := rfl

theorem printableLine_around (a b l : Line) (ha : printableLine a = true) (hb : printableLine b = true)
    (hl : printableLine l = true) : printableLine (a ++ l ++ b) = true := by
  rw [printableLine_append, printableLine_append, ha, hb, hl]; rfl

/-- The message of a runtime fault is printable; for a division by zero because its text is. -/
theorem printableLine_message (f : RuntimeFault) (h : ∀ pc text, f = .divByZero pc text → printableLine text = true) :
    printableLine f.message = true := by
  have hend : printableLine outOfBoundsText = true := by simp [printableLine, outOfBoundsText]
  cases f with
  | pcOutOfBounds pc =>
    have hp : printableLine pcOutOfBoundsText = true := by simp [printableLine, pcOutOfBoundsText]
    simp [RuntimeFault.message, hp]
  | copyFromOutOfBounds src =>
    exact printableLine_around _ _ _ (by simp [printableLine, copyFromText]) hend (printableLine_decUnsigned src)
  | copyToOutOfBounds dst =>
    exact printableLine_around _ _ _ (by simp [printableLine, copyToText]) hend (printableLine_decUnsigned dst)
  | writeOutOfBounds dst =>
    exact printableLine_around _ _ _ (by simp [printableLine, writeToText]) hend (printableLine_decUnsigned dst)
  | divByZero pc text =>
    have hd : printableLine divByZeroText = true := by simp [printableLine, divByZeroText]
    have hc : printableLine ": " = true := by simp [printableLine]
    simp [RuntimeFault.message, hd, hc, h pc text rfl]
  | aborted => simp [printableLine, RuntimeFault.message, abortedText]

end Sys2Proof.Machine
end

