-- ==== Sys2Proof/Laws/Exec.lean ====
section
/-! SUPPORT. What the meanings can do, said once: the instructions with a fault condition on each side of it, and an
inversion lemma for `exec` as a whole. -/

namespace Sys2Proof.Machine

/-! ### The three instructions that can fault -/

theorem execDiv_of_zero (rd ra rb : Reg) (s : State) (h : s.reg rb = 0) :
    execDiv rd ra rb s = .next (s.raise (.divByZero s.pc (render (.div rd ra rb)))) := by
  rw [execDiv, if_pos]
  rw [State.dataOperand_eq, h]; rfl

theorem execDiv_of_ne_zero (rd ra rb : Reg) (s : State) (h : s.reg rb ≠ 0) :
    execDiv rd ra rb s = .next (s.writeResult rd (truncDiv (s.reg ra).toInt (s.reg rb).toInt)) := by
  rw [execDiv, if_neg]
  · rfl
  · rw [State.dataOperand_eq]
    exact fun h0 => h (BitVec.eq_of_toInt_eq (by rw [h0]; rfl))

theorem execCopy_of_src_out (rd rs : Reg) (s : State) (h : 1024 ≤ (s.reg rs).toNat) :
    execCopy rd rs s = .next (s.raise (.copyFromOutOfBounds (s.reg rs))) := by
  rw [execCopy, if_pos]; simpa using h

theorem execCopy_of_dst_out (rd rs : Reg) (s : State) (hs : (s.reg rs).toNat < 1024) (hd : 1024 ≤ (s.reg rd).toNat) :
    execCopy rd rs s = .next (s.raise (.copyToOutOfBounds (s.reg rd))) := by
  rw [execCopy, if_neg (by simpa using hs), if_pos]; simpa using hd

theorem execCopy_of_in (rd rs : Reg) (s : State) (hs : (s.reg rs).toNat < 1024) (hd : (s.reg rd).toNat < 1024) :
    execCopy rd rs s = .next (s.setSlot (s.reg rd).toNat (s.slot (s.reg rs).toNat)).advance := by
  rw [execCopy, if_neg (by simpa using hs), if_neg (by simpa using hd)]; rfl

theorem execWrite_of_out (rd : Reg) (ins : Instr) (s : State) (h : 1024 ≤ (s.reg rd).toNat) :
    execWrite rd ins s = .next (s.raise (.writeOutOfBounds (s.reg rd))) := by
  rw [execWrite, if_pos]; simpa using h

theorem execWrite_of_in (rd : Reg) (ins : Instr) (s : State) (h : (s.reg rd).toNat < 1024) :
    execWrite rd ins s = .next (s.setSlot (s.reg rd).toNat ins).advance := by
  rw [execWrite, if_neg (by simpa using h)]; rfl

/-! ### All instructions -/

/-- What `exec` can answer: it raises a runtime fault, or it is `halt`, or the engine stays in the status it had, writes
lines to the trace, and keeps the memory's canonical form. -/
inductive ExecOutcome (i : Instr) (s : State) : State → Prop where
  | faulted (f : RuntimeFault) (hp : printableLine f.message = true) : ExecOutcome i s (s.raise f)
  | halted (hi : i = .halt) : ExecOutcome i s s.haltNormally
  | wentOn (t : State) (lines : List Line) (hst : t.status = s.status) (htr : t.trace = s.trace ++ lines)
      (hp : ∀ l ∈ lines, printableLine l = true) (hm : s.mem.wf = true → t.mem.wf = true) : ExecOutcome i s t

theorem ExecOutcome.quiet {i : Instr} {s : State} (t : State) (hst : t.status = s.status) (htr : t.trace = s.trace)
    (hm : s.mem.wf = true → t.mem.wf = true) : ExecOutcome i s t :=
  .wentOn t [] hst (by simp [htr]) (by simp) hm

/-- The inversion lemma of `exec`: every instruction has a next state, and it is one of the three. -/
theorem exec_outcome (i : Instr) (s : State) : ∃ t, exec i s = .next t ∧ ExecOutcome i s t := by
  cases i with
  | nop => exact ⟨_, rfl, .quiet _ rfl rfl id⟩
  | mov rd imm => exact ⟨_, rfl, .quiet _ rfl rfl id⟩
  | add rd ra rb => exact ⟨_, rfl, .quiet _ rfl rfl id⟩
  | sub rd ra rb => exact ⟨_, rfl, .quiet _ rfl rfl id⟩
  | mul rd ra rb => exact ⟨_, rfl, .quiet _ rfl rfl id⟩
  | div rd ra rb =>
    by_cases h : s.reg rb = 0
    · refine ⟨_, execDiv_of_zero rd ra rb s h, .faulted _ (printableLine_message _ ?_)⟩
      rintro pc text ⟨rfl, rfl⟩
      exact printableLine_render _
    · exact ⟨_, execDiv_of_ne_zero rd ra rb s h, .quiet _ rfl rfl id⟩
  | print => exact ⟨_, rfl, .wentOn _ [_] rfl rfl (by simp) id⟩
  | printr => exact ⟨_, rfl, .wentOn _ [render (s.slot s.prevSlot), regDump s.regs] rfl (by simp) (by simp) id⟩
  | copy rd rs =>
    by_cases hs : (s.reg rs).toNat < 1024
    · by_cases hd : (s.reg rd).toNat < 1024
      · exact ⟨_, execCopy_of_in rd rs s hs hd, .quiet _ rfl rfl (Memory.wf_write _ _ _ hd)⟩
      · exact ⟨_, execCopy_of_dst_out rd rs s hs (by omega), .faulted _ (printableLine_message _ (by simp))⟩
    · exact ⟨_, execCopy_of_src_out rd rs s (by omega), .faulted _ (printableLine_message _ (by simp))⟩
  | beq ra rb rt => exact ⟨_, rfl, .quiet _ (by simp) (by simp) (by simp)⟩
  | bne ra rb rt => exact ⟨_, rfl, .quiet _ (by simp) (by simp) (by simp)⟩
  | j rt => exact ⟨_, rfl, .quiet _ rfl rfl id⟩
  | rj rt => exact ⟨_, rfl, .quiet _ rfl rfl id⟩
  | write rd ins =>
    by_cases hd : (s.reg rd).toNat < 1024
    · exact ⟨_, execWrite_of_in rd ins s hd, .quiet _ rfl rfl (Memory.wf_write _ _ _ hd)⟩
    · exact ⟨_, execWrite_of_out rd ins s (by omega), .faulted _ (printableLine_message _ (by simp))⟩
  | halt => exact ⟨_, rfl, .halted rfl⟩

/-- The inversion lemma in the form that starts from an answer. -/
theorem exec_inversion {i : Instr} {s t : State} (h : exec i s = .next t) : ExecOutcome i s t := by
  obtain ⟨u, hu, ho⟩ := exec_outcome i s
  rw [hu] at h
  cases h
  exact ho

end Sys2Proof.Machine
end

