-- ==== Sys2Proof/Laws/Step.lean ====
section
/-! SUPPORT. What a step can do, said once: equations for each kind of state, and an inversion lemma. -/

namespace Sys2Proof.Machine

variable (s : State)

/-! ### The end-of-run part -/

@[simp] theorem Status.isRunning_eq_true (st : Status) : st.isRunning = true ↔ st = .running := by
  cases st <;> simp [Status.isRunning]

@[simp] theorem Status.isRunning_eq_false (st : Status) : st.isRunning = false ↔ st ≠ .running := by
  cases st <;> simp [Status.isRunning]

@[simp] theorem State.endOfRun_regs : s.endOfRun.regs = s.regs := by unfold State.endOfRun; split <;> rfl
@[simp] theorem State.endOfRun_pc : s.endOfRun.pc = s.pc := by unfold State.endOfRun; split <;> rfl
@[simp] theorem State.endOfRun_mem : s.endOfRun.mem = s.mem := by unfold State.endOfRun; split <;> rfl
@[simp] theorem State.endOfRun_status : s.endOfRun.status = s.status := by unfold State.endOfRun; split <;> rfl
@[simp] theorem State.endOfRun_reg (r : Reg) : s.endOfRun.reg r = s.reg r := by unfold State.endOfRun; split <;> rfl
@[simp] theorem State.endOfRun_slot (a : Nat) : s.endOfRun.slot a = s.slot a := by unfold State.endOfRun; split <;> rfl

theorem State.endOfRun_of_running (h : s.status = .running) : s.endOfRun = s := by
  rw [State.endOfRun, if_neg]; simp [h]

theorem State.endOfRun_of_trace (h : s.trace ≠ []) : s.endOfRun = s := by
  rw [State.endOfRun, if_neg]; simp [h]

theorem State.endOfRun_of_silent (h : s.status ≠ .running) (ht : s.trace = []) : s.endOfRun = s.emit noOutputLine := by
  rw [State.endOfRun, if_pos]; simpa [ht] using h

/-- A fault leaves a line, so its step appends no sentinel (rule R188). -/
@[simp] theorem State.endOfRun_raise (f : RuntimeFault) : (s.raise f).endOfRun = s.raise f :=
  State.endOfRun_of_trace _ (by simp)

/-! ### Steps -/

theorem step_of_running (h : s.status = .running) : step s = runningStep s := by
  unfold step; rw [h]

/-- Out of bounds, the fetch guard raises code 1 and no instruction executes (rule R47). -/
theorem step_of_outOfBounds (h : s.status = .running) (hpc : 1024 ≤ s.pc.toNat) :
    step s = .next (s.raise (.pcOutOfBounds s.pc)) := by
  rw [step_of_running s h, runningStep, if_pos (by simpa using hpc), concludeStep, State.endOfRun_raise]

/-- In bounds, the instruction at the pc executes (rule R48). -/
theorem step_of_inBounds (h : s.status = .running) (hpc : s.pc.toNat < 1024) :
    step s = concludeStep (exec (s.slot s.pc.toNat) s) := by
  rw [step_of_running s h, runningStep, if_neg (by simpa using hpc), State.fetch_eq]

theorem step_of_exec (h : s.status = .running) (hpc : s.pc.toNat < 1024) {u : State}
    (hu : exec (s.slot s.pc.toNat) s = .next u) : step s = .next u.endOfRun := by
  rw [step_of_inBounds s h hpc, hu]; rfl

/-- A step in which the engine stays Running is the instruction alone. -/
theorem step_of_exec_running (h : s.status = .running) (hpc : s.pc.toNat < 1024) {u : State}
    (hu : exec (s.slot s.pc.toNat) s = .next u) (hr : u.status = .running) : step s = .next u := by
  rw [step_of_exec s h hpc hu, State.endOfRun_of_running u hr]

/-- What a step can do: it starts in a Running state, and it is the fetch guard's fault, or the instruction at the pc
followed by the end-of-run part. -/
inductive StepOutcome (s : State) : State → Prop where
  | guardFault (hr : s.status = .running) (hpc : 1024 ≤ s.pc.toNat) : StepOutcome s (s.raise (.pcOutOfBounds s.pc))
  | executed (hr : s.status = .running) (hpc : s.pc.toNat < 1024) (u : State)
      (hx : exec (s.slot s.pc.toNat) s = .next u) : StepOutcome s u.endOfRun

/-- The inversion lemma of `step`. -/
theorem step_inversion {s t : State} (h : step s = .next t) : StepOutcome s t := by
  have hr : s.status = .running := by
    cases hs : s.status with
    | running => rfl
    | haltedNormally => unfold step at h; rw [hs] at h; cases h
    | haltedOnError m => unfold step at h; rw [hs] at h; cases h
  rcases Nat.lt_or_ge s.pc.toNat 1024 with hpc | hpc
  · obtain ⟨u, hu, -⟩ := exec_outcome (s.slot s.pc.toNat) s
    rw [step_of_exec s hr hpc hu] at h
    cases h
    exact .executed hr hpc u hu
  · rw [step_of_outOfBounds s hr hpc] at h
    cases h
    exact .guardFault hr hpc

/-! ### Runs -/

theorem stepsFor_succ_of_step (n : Nat) {t : State} (h : step s = .next t) : stepsFor (n + 1) s = stepsFor n t := by
  rw [stepsFor, h]

/-- A halted engine stays where it is, however many steps are asked for. -/
theorem stepsFor_of_halted (n : Nat) (h : s.status ≠ .running) : stepsFor n s = s := by
  cases n with
  | zero => rfl
  | succ n =>
    cases hs : step s with
    | next t => cases step_inversion hs <;> contradiction
    | fault f => rw [stepsFor, hs]
    | refused r => rw [stepsFor, hs]

theorem runFor_of_halted (n : Nat) (h : s.status ≠ .running) : runFor n s = some s := by
  rw [runFor, stepsFor_of_halted s n h, if_neg]; simpa using h

theorem runFor_zero_of_running (h : s.status = .running) : runFor 0 s = none := by simp [runFor, stepsFor, h]

theorem runFor_succ_of_step (n : Nat) {t : State} (ht : step s = .next t) : runFor (n + 1) s = runFor n t := by
  rw [runFor, runFor, stepsFor_succ_of_step s n ht]

/-- An induction over runs: what holds at the start and is kept by every step and by ABORT holds at every state
reached. -/
theorem Reaches.induct {P : State → Prop} {s t : State} (h : Reaches s t) (h0 : P s)
    (hstep : ∀ u v, P u → step u = .next v → P v) (habort : ∀ u, P u → P u.abort) : P t := by
  induction h with
  | start => exact h0
  | stepped _ hu ih => exact hstep _ _ ih hu
  | cancelled _ ih => exact habort _ ih

end Sys2Proof.Machine
end

