-- ==== Sys2Proof/Laws/Interface.lean ====
section
/-! SUPPORT. The contract checks as comparisons of numbers, and LOAD on each side of its check. -/

namespace Sys2Proof

theorem regOfId?_of_lt (n : Nat) (h : n < 16) : regOfId? n = some (BitVec.ofNat 4 n) := if_pos h

theorem regOfId?_of_ge (n : Nat) (h : 16 ≤ n) : regOfId? n = none := if_neg (Nat.not_lt.mpr h)

@[simp] theorem programFits_eq_true (p : List Instr) : programFits p = true ↔ p.length ≤ 1024 := by simp [programFits]

end Sys2Proof

namespace Sys2Proof.Machine

theorem load_of_fits (p : List Instr) (h : p.length ≤ 1024) : load p = .ok (loadedState p) := by
  rw [load, if_pos ((programFits_eq_true p).mpr h)]

theorem load_of_long (p : List Instr) (h : 1024 < p.length) : load p = .error .programTooLong := by
  rw [load, if_neg (by simpa using h)]

/-- A program that LOAD takes fits the memory, and the state is the one it leaves. -/
theorem load_inversion {p : List Instr} {s : State} (h : load p = .ok s) : p.length ≤ 1024 ∧ s = loadedState p := by
  rcases Nat.lt_or_ge 1024 p.length with hp | hp
  · rw [load_of_long p hp] at h; cases h
  · rw [load_of_fits p hp] at h; cases h; exact ⟨hp, rfl⟩

@[simp] theorem loadedState_mem (p : List Instr) : (loadedState p).mem = Memory.ofProgram p := rfl
@[simp] theorem loadedState_pc (p : List Instr) : (loadedState p).pc = 0 := rfl
@[simp] theorem loadedState_trace (p : List Instr) : (loadedState p).trace = [] := rfl
@[simp] theorem loadedState_status (p : List Instr) : (loadedState p).status = .running := rfl
@[simp] theorem loadedState_reg (p : List Instr) (r : Reg) : (loadedState p).reg r = 0 := by
  simp [loadedState, State.reg, State.reset]

/-- One step taken by `stepsFor`. -/
theorem stepsFor_one (s : State) {t : State} (h : step s = .next t) : stepsFor 1 s = t := by
  rw [stepsFor_succ_of_step s 0 h]; rfl

/-- The state after any number of steps is one that steps alone lead to. -/
theorem stepsTo_stepsFor (n : Nat) : ∀ r s : State, StepsTo r s → StepsTo r (stepsFor n s) := by
  induction n with
  | zero => exact fun _ _ h => h
  | succ n ih =>
    intro r s h
    cases hs : step s with
    | next t => rw [stepsFor_succ_of_step s n hs]; exact ih r t (.stepped h hs)
    | fault f => rw [stepsFor, hs]; exact h
    | refused f => rw [stepsFor, hs]; exact h

/-- A run by steps alone is a run. -/
theorem StepsTo.reaches {s t : State} (h : StepsTo s t) : Reaches s t := by
  induction h with
  | start => exact .start _
  | stepped _ hu ih => exact .stepped ih hu

/-! ### The host's operations on a loaded block -/

theorem abort_of_running (s : State) (h : s.status = .running) : s.abort = s.raise .aborted := by
  rw [State.abort, if_pos (by simpa using h)]

theorem abort_of_halted (s : State) (h : s.status ≠ .running) : s.abort = s := by
  rw [State.abort, if_neg (by simpa using h)]

theorem runReply_of_running (s : State) (h : s.status = .running) : s.runReply = .stillRunning := by
  rw [State.runReply, if_pos (by simpa using h)]

theorem runReply_of_halted (s : State) (h : s.status ≠ .running) : s.runReply = s.statusReply := by
  rw [State.runReply, if_neg (by simpa using h)]

/-- What RUN returns is a halted state, the one after the steps it took. -/
theorem runFor_eq_some (n : Nat) (s t : State) : runFor n s = some t ↔ stepsFor n s = t ∧ t.status ≠ .running := by
  unfold runFor
  split
  · next h =>
    refine ⟨fun he => (by cases he), fun ⟨he, ht⟩ => absurd ?_ ht⟩
    rw [← he]; simpa using h
  · next h =>
    simp only [Option.some.injEq]
    refine ⟨fun he => ⟨he, ?_⟩, fun he => he.1⟩
    rw [← he]; simpa using h

end Sys2Proof.Machine
end

