-- ==== Sys2Proof/Laws/PerInstr.lean ====
section
/-! SUPPORT. Statements about every instruction as syntax, one lemma per constructor. `HeaderMatchesRow`: its header word
is the first word of its serialised form and belongs to its row of the opcode table (rules R88 to R90).
`TextStartsWithMnemonic`: its disassembly starts with its mnemonic (rules R96, R100). -/

namespace Sys2Proof.Laws

/-- A word whose masked fields are those of a header word agrees with it under the mask. -/
theorem headerWord_and (t a b c t' a' b' c' : BitVec 4) :
    headerWord t a b c &&& headerWord t' a' b' c' = headerWord (t &&& t') (a &&& a') (b &&& b') (c &&& c') := by
  refine (BitVec.and_append (w := 12) (v := 4)).trans ?_
  rw [BitVec.and_append (w := 8) (v := 4), BitVec.and_append (w := 4) (v := 4)]
  rfl

/-- The three masks of the table, as header words. -/
theorem mask_tag : (0xf000 : HalfWord) = headerWord 15 0 0 0 := by decide
theorem mask_tag_f3 : (0xf00f : HalfWord) = headerWord 15 0 0 15 := by decide
theorem mask_tag_f2_f3 : (0xf0ff : HalfWord) = headerWord 15 0 15 15 := by decide

theorem covers_tag (t a b c : BitVec 4) (p : HalfWord) (hp : p = headerWord t 0 0 0) (m : String) :
    OpcodeRow.covers ⟨m, p, 0xf000⟩ (headerWord t a b c) = true := by
  simp only [OpcodeRow.covers, mask_tag, headerWord_and, hp, beq_iff_eq]
  congr 1 <;> first | exact BitVec.and_allOnes | exact BitVec.and_zero

theorem covers_tag_f3 (t a b : BitVec 4) (p : HalfWord) (hp : p = headerWord t 0 0 0) (m : String) :
    OpcodeRow.covers ⟨m, p, 0xf00f⟩ (headerWord t a b 0) = true := by
  simp only [OpcodeRow.covers, mask_tag_f3, headerWord_and, hp, beq_iff_eq]
  congr 1 <;> first | exact BitVec.and_allOnes | exact BitVec.and_zero

theorem covers_tag_f2_f3 (t a : BitVec 4) (p : HalfWord) (hp : p = headerWord t 0 0 0) (m : String) :
    OpcodeRow.covers ⟨m, p, 0xf0ff⟩ (headerWord t a 0 0) = true := by
  simp only [OpcodeRow.covers, mask_tag_f2_f3, headerWord_and, hp, beq_iff_eq]
  congr 1 <;> first | exact BitVec.and_allOnes | exact BitVec.and_zero

namespace HeaderMatchesRow

def Statement (i : Instr) : Prop :=
  (encode i).head? = some (headerOf i) ∧ (opcodeRowOf i).covers (headerOf i) = true

theorem nop : Statement .nop := ⟨rfl, by decide⟩
theorem mov (rd : Reg) (imm : Word) : Statement (.mov rd imm) := ⟨rfl, covers_tag_f2_f3 1 rd _ (by decide) _⟩
theorem add (rd ra rb : Reg) : Statement (.add rd ra rb) := ⟨rfl, covers_tag 2 rd ra rb _ (by decide) _⟩
theorem sub (rd ra rb : Reg) : Statement (.sub rd ra rb) := ⟨rfl, covers_tag 3 rd ra rb _ (by decide) _⟩
theorem mul (rd ra rb : Reg) : Statement (.mul rd ra rb) := ⟨rfl, covers_tag 4 rd ra rb _ (by decide) _⟩
theorem div (rd ra rb : Reg) : Statement (.div rd ra rb) := ⟨rfl, covers_tag 5 rd ra rb _ (by decide) _⟩
theorem print : Statement .print := ⟨rfl, by decide⟩
theorem printr : Statement .printr := ⟨rfl, by decide⟩
theorem copy (rd rs : Reg) : Statement (.copy rd rs) := ⟨rfl, covers_tag_f3 8 rd rs _ (by decide) _⟩
theorem beq (ra rb rt : Reg) : Statement (.beq ra rb rt) := ⟨rfl, covers_tag 9 ra rb rt _ (by decide) _⟩
theorem bne (ra rb rt : Reg) : Statement (.bne ra rb rt) := ⟨rfl, covers_tag 10 ra rb rt _ (by decide) _⟩
theorem j (rt : Reg) : Statement (.j rt) := ⟨rfl, covers_tag_f2_f3 11 rt _ (by decide) _⟩
theorem rj (rt : Reg) : Statement (.rj rt) := ⟨rfl, covers_tag_f2_f3 12 rt _ (by decide) _⟩
theorem write (rd : Reg) (ins : Instr) : Statement (.write rd ins) := ⟨rfl, covers_tag_f2_f3 13 rd _ (by decide) _⟩
theorem halt : Statement .halt := ⟨rfl, by decide⟩

end HeaderMatchesRow

namespace TextStartsWithMnemonic

def Statement (i : Instr) : Prop :=
  (opcodeRowOf i).mnemonic.toList <+: (Machine.render i).toList

theorem nop : Statement .nop := by simp [Statement, opcodeRowOf, Machine.render]
theorem mov (rd : Reg) (imm : Word) : Statement (.mov rd imm) := by simp [Statement, opcodeRowOf, Machine.render]
theorem add (rd ra rb : Reg) : Statement (.add rd ra rb) := by
  simp [Statement, opcodeRowOf, Machine.render, Machine.renderRRR]
theorem sub (rd ra rb : Reg) : Statement (.sub rd ra rb) := by
  simp [Statement, opcodeRowOf, Machine.render, Machine.renderRRR]
theorem mul (rd ra rb : Reg) : Statement (.mul rd ra rb) := by
  simp [Statement, opcodeRowOf, Machine.render, Machine.renderRRR]
theorem div (rd ra rb : Reg) : Statement (.div rd ra rb) := by
  simp [Statement, opcodeRowOf, Machine.render, Machine.renderRRR]
theorem print : Statement .print := by simp [Statement, opcodeRowOf, Machine.render]
theorem printr : Statement .printr := by simp [Statement, opcodeRowOf, Machine.render]
theorem copy (rd rs : Reg) : Statement (.copy rd rs) := by simp [Statement, opcodeRowOf, Machine.render]
theorem beq (ra rb rt : Reg) : Statement (.beq ra rb rt) := by
  simp [Statement, opcodeRowOf, Machine.render, Machine.renderRRR]
theorem bne (ra rb rt : Reg) : Statement (.bne ra rb rt) := by
  simp [Statement, opcodeRowOf, Machine.render, Machine.renderRRR]
theorem j (rt : Reg) : Statement (.j rt) := by simp [Statement, opcodeRowOf, Machine.render]
theorem rj (rt : Reg) : Statement (.rj rt) := by simp [Statement, opcodeRowOf, Machine.render]
theorem write (rd : Reg) (ins : Instr) : Statement (.write rd ins) := by
  simp [Statement, opcodeRowOf, Machine.render]
theorem halt : Statement .halt := by simp [Statement, opcodeRowOf, Machine.render]

end TextStartsWithMnemonic

end Sys2Proof.Laws
end

