-- ==== Sys2Proof/Tests/Slice0.lean ====
section
/-! SUPPORT. Tests of one step each, with the results of spec/95_test_vectors.md (the vector's name stands at each), and
for every statement with hypotheses a state that meets them. -/

namespace Sys2Proof.Tests

open Sys2Proof.Machine

/-- The vectors' states: registers not listed are 0, slots not listed hold `nop`, Running, the trace empty. -/
def st (pc : Word) (regs : List (Reg × Word)) (slots : List (Nat × Instr)) : State :=
  slots.foldl (fun s p => s.setSlot p.1 p.2) (regs.foldl (fun s p => s.setReg p.1 p.2) (State.reset.setPc pc))

/-- The answer is a next state with a property. -/
def nextIs (r : Result) (p : State → Bool) : Bool :=
  match r with
  | .next t => p t
  | .fault _ => false
  | .refused _ => false

/-- Running, pc at most `last`, memory in canonical form: the premises that many statements share. -/
def ready (last : Nat) (s : State) : Bool := s.status == .running && decide (s.pc.toNat ≤ last) && s.mem.wf

/-! ### The contract checks refuse ill-formed input -/

theorem test_register_16_refused : regOfId? 16 = none := by decide
theorem test_register_15_accepted : regOfId? 15 = some 15 := by decide
/-- F4. -/
theorem test_program_1025_refused : programFits (List.replicate 1025 .nop) = false := by
  rw [programFits, List.length_replicate]; decide
theorem test_program_1024_fits : programFits (List.replicate 1024 .nop) = true := by
  rw [programFits, List.length_replicate]; decide
theorem test_decode_reserved_tag : decode [0xf000] = .error (.reservedTag 0xf000) := by decide
theorem test_decode_unused_field : decode [0x1101, 0, 0, 0, 0] = .error (.unusedFieldNotZero 0x1101) := by decide
theorem test_decode_mov_truncated : decode [0x1100, 0, 0, 7] = .error .truncated := by decide
theorem test_decode_write_of_invalid : decode [0xd000, 0xe001] = .error (.unusedFieldNotZero 0xe001) := by decide

/-! ### Decoding: a word for every row, written out from rule R89 (tag, F1, F2, F3 as hexadecimal digits) -/

theorem test_decode_nop : decode [0x0000] = .ok (.nop, []) := by decide
theorem test_decode_mov : decode [0x1200, 0xffff, 0xffff, 0xffff, 0xfffd] = .ok (.mov 2 (-3), []) := by decide
theorem test_decode_add : decode [0x2312] = .ok (.add 3 1 2, []) := by decide
theorem test_decode_sub : decode [0x3421] = .ok (.sub 4 2 1, []) := by decide
theorem test_decode_mul : decode [0x4512] = .ok (.mul 5 1 2, []) := by decide
theorem test_decode_div : decode [0x5612] = .ok (.div 6 1 2, []) := by decide
theorem test_decode_print : decode [0x6000] = .ok (.print, []) := by decide
theorem test_decode_printr : decode [0x7000] = .ok (.printr, []) := by decide
theorem test_decode_copy : decode [0x8120] = .ok (.copy 1 2, []) := by decide
theorem test_decode_beq : decode [0x9123] = .ok (.beq 1 2 3, []) := by decide
theorem test_decode_bne : decode [0xa103] = .ok (.bne 1 0 3, []) := by decide
theorem test_decode_j : decode [0xbf00] = .ok (.j 15, []) := by decide
theorem test_decode_rj : decode [0xc200] = .ok (.rj 2, []) := by decide
theorem test_decode_write : decode [0xd000, 0xd100, 0xe000, 0x6000] = .ok (.write 0 (.write 1 .halt), [0x6000]) := by decide
theorem test_decode_halt : decode [0xe000] = .ok (.halt, []) := by decide
theorem test_encode_mov : encode (.mov 0 5) = [0x1000, 0, 0, 0, 5] := by decide
theorem test_table_word_bits : decodeTableWord 16 0x2dab = some (.add 13 10 11) := by decide
theorem test_table_word_mov : decodeTableWord 16 0x1d00 = some (.mov 13 0) := by decide

/-! ### Move and arithmetic -/

/-- A1. -/
theorem test_nop : nextIs (exec .nop (st 10 [(1, 7)] [])) (fun t => t.pc == 11 && t.reg 1 == 7) = true := by decide
/-- A2. -/
theorem test_mov_least : nextIs (exec (.mov 0 (-9223372036854775808)) (st 10 [] []))
    (fun t => t.reg 0 == -9223372036854775808 && t.pc == 11) = true := by decide
/-- A4, E3. -/
theorem test_add_wraps : nextIs (exec (.add 3 1 2) (st 10 [(1, 9223372036854775807), (2, 1)] []))
    (fun t => t.reg 3 == -9223372036854775808 && t.status == .running) = true := by decide
/-- A6. -/
theorem test_add_same_register : nextIs (exec (.add 1 1 1) (st 10 [(1, 3)] [])) (fun t => t.reg 1 == 6) = true := by decide
/-- A10. -/
theorem test_sub_order : nextIs (exec (.sub 3 2 1) (st 10 [(1, 7), (2, -3)] [])) (fun t => t.reg 3 == -10) = true := by
  decide
/-- A8. -/
theorem test_sub_wraps : nextIs (exec (.sub 3 1 2) (st 10 [(2, -9223372036854775808)] []))
    (fun t => t.reg 3 == -9223372036854775808) = true := by decide
/-- A11. -/
theorem test_mul_wraps : nextIs (exec (.mul 3 1 2) (st 10 [(1, 9223372036854775807), (2, 2)] []))
    (fun t => t.reg 3 == -2) = true := by decide
/-- A13. -/
theorem test_mul_low_half : nextIs (exec (.mul 2 1 1) (st 10 [(1, 4294967296)] [])) (fun t => t.reg 2 == 0) = true := by
  decide
/-- A16 to A19: the table of rule R112. -/
theorem test_truncDiv_signs :
    truncDiv (-7) 2 = -3 ∧ truncDiv 7 (-2) = -3 ∧ truncDiv (-7) (-2) = 3 ∧ truncDiv (-1) 2 = 0 := by decide
/-- A20. -/
theorem test_div_wraps : nextIs (exec (.div 3 1 2) (st 10 [(1, -9223372036854775808), (2, -1)] []))
    (fun t => t.reg 3 == -9223372036854775808 && t.status == .running) = true := by decide
/-- A22. -/
theorem test_div_by_zero : nextIs (exec (.div 3 1 2) (st 10 [(1, 7), (3, 99)] []))
    (fun t => t.reg 3 == 99 && t.trace == ["error: division by zero at 10: div r3, r1, r2"]) = true := by decide +kernel

/-! ### Trace output -/

/-- T3. -/
theorem test_print_nested : nextIs (exec .print (st 10 [] [(9, .write 2 (.write 3 (.mov 4 (-1))))]))
    (fun t => t.trace == ["write r2, [write r3, [mov r4, -1]]"] && t.pc == 11) = true := by decide +kernel
/-- T2, with another instruction in slot 1023. -/
theorem test_print_wraps : nextIs (exec .print (st 0 [] [(1023, .j 2)])) (fun t => t.trace == ["j r2"]) = true := by
  decide +kernel
/-- T5. -/
theorem test_printr : nextIs (exec .printr (st 10 [(0, -1), (15, 10)] [(9, .halt)])) (fun t => t.trace == ["halt",
    "r0: -1, r1: 0, r2: 0, r3: 0, r4: 0, r5: 0, r6: 0, r7: 0, r8: 0, r9: 0, r10: 0, r11: 0, r12: 0, r13: 0, r14: 0, r15: 10"])
    = true := by decide +kernel

/-! ### Memory instructions -/

/-- M1. -/
theorem test_copy : nextIs (exec (.copy 1 0) (st 10 [(0, 20), (1, 30)] [(20, .write 5 .halt)]))
    (fun t => t.slot 30 == .write 5 .halt && t.slot 20 == .write 5 .halt && t.pc == 11) = true := by decide
/-- M5. -/
theorem test_copy_source_first : nextIs (exec (.copy 1 0) (st 10 [(0, 2000), (1, 3000)] []))
    (fun t => t.trace == ["error: copy from address 2000 out of bounds"] && t.pc == 10) = true := by decide +kernel
/-- M7. -/
theorem test_write_last_slot : nextIs (exec (.write 0 (.mov 1 5)) (st 10 [(0, 1023)] []))
    (fun t => t.slot 1023 == .mov 1 5 && t.pc == 11) = true := by decide
/-- M8. -/
theorem test_write_out_of_bounds : nextIs (exec (.write 0 .nop) (st 10 [(0, 1024)] []))
    (fun t => t.trace == ["error: write to address 1024 out of bounds"] && t.pc == 10) = true := by decide +kernel
/-- Writing `nop` over the only listed slot leaves the memory with nothing listed (rule R211, canonical form). -/
theorem test_memory_canonical : Memory.write (Memory.write [] 5 .halt) 5 .nop = [] := by decide

/-! ### Control transfer -/

/-- C1 and C2. -/
theorem test_beq : nextIs (exec (.beq 1 2 3) (st 10 [(1, 2), (2, 2), (3, 40)] [])) (fun t => t.pc == 40) = true ∧
    nextIs (exec (.beq 1 2 3) (st 10 [(1, 2), (2, 3), (3, 40)] [])) (fun t => t.pc == 11) = true := by decide
/-- C3 and C4. -/
theorem test_bne : nextIs (exec (.bne 1 2 3) (st 10 [(1, 2), (2, 3), (3, 40)] [])) (fun t => t.pc == 40) = true ∧
    nextIs (exec (.bne 1 1 3) (st 10 [(1, 5), (3, 40)] [])) (fun t => t.pc == 11) = true := by decide
/-- C7. -/
theorem test_j_links : nextIs (exec (.j 1) (st 10 [(1, 40)] [])) (fun t => t.pc == 40 && t.reg 15 == 11) = true := by
  decide
/-- C8. -/
theorem test_j_through_link : nextIs (exec (.j 15) (st 10 [(15, 40)] [])) (fun t => t.pc == 40 && t.reg 15 == 11) = true := by
  decide
/-- C10. -/
theorem test_rj_back : nextIs (exec (.rj 1) (st 10 [(1, -3)] [])) (fun t => t.pc == 7 && t.reg 15 == 0) = true := by decide
/-- C12. -/
theorem test_rj_below_zero : nextIs (exec (.rj 1) (st 10 [(1, -11)] [])) (fun t => t.pc == 18446744073709551615) = true := by
  decide
/-- C15. -/
theorem test_halt_sentinel : nextIs (step (st 10 [] [(10, .halt)]))
    (fun t => t.status == .haltedNormally && t.pc == 10 && t.trace == ["no output"]) = true := by decide +kernel
/-- C16. -/
theorem test_halt_with_output : nextIs (step ((st 10 [] [(10, .halt)]).emit "x"))
    (fun t => t.status == .haltedNormally && t.trace == ["x"]) = true := by decide +kernel

/-! ### The execution cycle and the host's operations -/

/-- F1. -/
theorem test_fetch_guard : nextIs (step (st 1024 [] [])) (fun t =>
    t.status == .haltedOnError "error: program counter out of bounds: 1024" &&
      t.trace == ["error: program counter out of bounds: 1024"]) = true := by decide +kernel
/-- The codes of rule R181. -/
theorem test_fault_codes : [RuntimeFault.pcOutOfBounds 0, .copyFromOutOfBounds 0, .copyToOutOfBounds 0,
    .writeOutOfBounds 0, .divByZero 0 "", .aborted].map RuntimeFault.code = [1, 2, 3, 4, 5, 6] := by decide
/-- F2. -/
theorem test_halted_has_no_step : runFor 0 (State.reset.setStatus .haltedNormally) =
    some (State.reset.setStatus .haltedNormally) := by decide
/-- F3. -/
theorem test_abort : (st 3 [] []).abort.trace = ["error: execution cancelled"] ∧ (st 3 [] []).abort.pc = 3 := by
  decide +kernel
/-- The host's test word runs at the first step: `j r1` at slot 0 links slot 1. -/
theorem test_fetch_word : nextIs (step (State.reset.withFetchWord 16 0xb100)) (fun t => t.reg 15 == 1 && t.pc == 0) = true := by
  decide
/-- P8's first two instructions as words, loaded into slots 0 and 1. -/
theorem test_load_words : ((loadWords [0x1000, 0, 0, 0, 3, 0xd000, 0xd100, 0xe000]).toOption.map fun s =>
    (s.slot 0, s.slot 1, s.slot 2)) = some (.mov 0 3, .write 0 (.write 1 .halt), .nop) := by decide
theorem test_refused_load_changes_nothing : perform (.loadWords [0xf000]) (some State.reset) =
    (.refused (.invalidWords (.reservedTag 0xf000)), some State.reset) := by decide

/-! ### Witnesses: states and operands that meet the hypotheses of a statement, at the edges of each clause -/

theorem witness_LoadSetsWholeState : (List.replicate 1024 Instr.halt).length ≤ 1024 ∧ ([] : List Instr).length ≤ 1024 := by
  rw [List.length_replicate]; decide
theorem witness_LoadRefusesOversizedProgram : 1024 < (List.replicate 1025 Instr.nop).length := by
  rw [List.length_replicate]; decide
theorem witness_LoadRefusesInvalidWords : ∀ row ∈ opcodeRows, row.covers 0xf000 = false := by decide
theorem witness_HostOperationsOnBlock_load : load [.halt] = .ok (loadedState [.halt]) ∧
    loadWords [0xe000] = .ok (loadedState [.halt]) ∧ loadWords [0xf000] = .error (.invalidWords (.reservedTag 0xf000)) ∧
    load (List.replicate 1025 .nop) = .error .programTooLong ∧ (List.replicate 1024 Instr.nop).length ≤ 1024 ∧
    1024 < (List.replicate 1025 Instr.nop).length := by
  refine ⟨rfl, rfl, by decide, if_neg ?_, ?_, ?_⟩
  · rw [programFits, List.length_replicate]; decide
  · exact (List.length_replicate ..).le
  · rw [List.length_replicate]; decide
theorem witness_HostOperationsOnBlock_run : (∀ p, HostOp.abort ≠ .load p) ∧ (∀ ws, HostOp.abort ≠ .loadWords ws) ∧
    State.reset.status = .running ∧ nextIs (step State.reset) (fun _ => true) = true ∧
    (runFor 1 (st 0 [] [(0, .halt)])).isSome = true ∧ (State.reset.raise .aborted).status ≠ .running :=
  ⟨by simp, by simp, rfl, by decide, by decide +kernel, by decide⟩
theorem witness_OpcodeRowsDisjoint : opcodeRowOf .halt ∈ opcodeRows ∧ (opcodeRowOf .halt).covers 0xe000 = true := by decide
theorem witness_EncodeOfDecode : decode [0xd000, 0xe000, 0x6000] = .ok (.write 0 .halt, [0x6000]) := by decide
theorem witness_StepExecutesSlotAtPc : (st 1023 [] []).status = .running ∧ (st 1023 [] []).pc.toNat < 1024 := by decide
theorem witness_StepExecutesDecodedWord : (st 1023 [] []).status = .running ∧ (st 1023 [] []).pc.toNat < 1024 ∧
    (st 1023 [] []).mem.wf = true ∧ decodeTableWord 16 0xe000 = some .halt := by decide
theorem witness_FetchGuardEndsRun : (st 1024 [] []).status = .running ∧ 1024 ≤ (st 1024 [] []).pc.toNat := by decide
theorem witness_HaltedEngineStays : (State.reset.setStatus .haltedNormally).status ≠ .running ∧
    (State.reset.raise .aborted).status ≠ .running := by decide
theorem witness_ResultsSameForUnsignedReading : nextIs (exec (.mul 1 2 3) State.reset) (fun _ => true) = true ∧
    nextIs (exec (.add 1 2 3) State.reset) (fun _ => true) = true ∧
    nextIs (exec (.sub 1 2 3) State.reset) (fun _ => true) = true := by decide
theorem witness_DivTruncatesTowardZero : (st 0 [(2, -1)] []).reg 2 ≠ 0 ∧ (st 0 [(2, 1)] []).reg 2 ≠ 0 := by decide
theorem witness_DivByZeroEndsRun : (st 0 [(1, 1)] []).reg 2 = 0 := by decide
theorem witness_SameRegisterForms : (st 0 [(1, -9223372036854775808)] []).reg 1 ≠ 0 := by decide
theorem witness_DecimalTextReadsBack : (dec 0).toList.head? = some '0' ∧ (dec (-1)).toList = ['-', '1'] := by
  decide +kernel
theorem witness_CopyMovesOneSlot : (st 0 [(1, 1023)] [(1023, .halt)]).mem.wf = true ∧
    ((st 0 [(1, 1023)] [(1023, .halt)]).reg 1).toNat < 1024 ∧ ((st 0 [(1, 1023)] [(1023, .halt)]).reg 2).toNat < 1024 := by
  decide
theorem witness_CopyOutOfBoundsEndsRun : 1024 ≤ ((st 0 [(1, 1024)] []).reg 1).toNat ∧
    ((st 0 [(1, 1024), (2, 1023)] []).reg 2).toNat < 1024 ∧ 1024 ≤ ((st 0 [(1, 1024), (2, 1023)] []).reg 1).toNat := by
  decide
theorem witness_CopyOntoItselfKeepsMemory : (st 0 [(1, 1023), (2, 1023)] [(1023, .halt)]).mem.wf = true ∧
    (st 0 [(1, 1023), (2, 1023)] [(1023, .halt)]).reg 1 = (st 0 [(1, 1023), (2, 1023)] [(1023, .halt)]).reg 2 ∧
    ((st 0 [(1, 1023), (2, 1023)] [(1023, .halt)]).reg 1).toNat < 1024 := by decide
theorem witness_WriteStoresLiteral : (st 0 [(1, 1023)] []).mem.wf = true ∧ ((st 0 [(1, 1023)] []).reg 1).toNat < 1024 := by
  decide
theorem witness_WriteOutOfBoundsEndsRun : 1024 ≤ ((st 0 [(1, 1024)] []).reg 1).toNat := by decide
theorem witness_BeqBranchesOnEqual : (st 0 [(1, 5)] []).reg 2 = (st 0 [(1, 5)] []).reg 3 ∧
    (st 0 [(1, 5)] []).reg 1 ≠ (st 0 [(1, 5)] []).reg 2 := by decide
theorem witness_BneBranchesOnDifferent : (st 0 [(1, 5)] []).reg 1 ≠ (st 0 [(1, 5)] []).reg 2 ∧
    (st 0 [(1, 5)] []).reg 2 = (st 0 [(1, 5)] []).reg 3 := by decide
theorem witness_RelativeJumpInBoundsIffSumIs : (st 1023 [] []).pc.toNat < 1024 ∧ (st 0 [] []).pc.toNat < 1024 := by decide
theorem witness_HaltStepLeavesSentinel : ready 1023 (st 1023 [] [(1023, .halt)]) = true ∧
    (st 1023 [] [(1023, .halt)]).slot 1023 = .halt := by decide
theorem witness_TargetCheckedAtNextFetch :
    ready 1023 (st 1 [(1, 1023)] [(1, .j 1)]) = true ∧
    takenTarget (st 1 [(1, 1023)] [(1, .j 1)]) ((st 1 [(1, 1023)] [(1, .j 1)]).slot 1) = some 1023 ∧
    ready 1023 (st 1 [(1, 1024)] [(1, .beq 1 1 1)]) = true ∧
    takenTarget (st 1 [(1, 1024)] [(1, .beq 1 1 1)]) ((st 1 [(1, 1024)] [(1, .beq 1 1 1)]).slot 1) = some 1024 ∧
    ready 1023 (st 1 [(1, 1023)] [(1, .rj 1)]) = true ∧
    takenTarget (st 1 [(1, 1023)] [(1, .rj 1)]) ((st 1 [(1, 1023)] [(1, .rj 1)]).slot 1) = some 1024 := by decide
/-- A call from slot 1 to slot 4, and the engine in slot 9 with the link in r15, about to return. -/
def callState : State := st 1 [(1, 4)] [(1, .j 1)]
def returnState (ret : Instr) : State := st 9 [(15, 2), (3, 7)] [(9, ret)]

theorem witness_CallAndReturn : ready 1023 callState = true ∧ callState.slot 1 = .j 1 ∧
    ready 1023 (returnState (.beq 0 0 15)) = true ∧ (returnState (.beq 0 0 15)).reg 15 = callState.pc + 1 ∧
    (returnState (.beq 0 0 15)).slot 9 = .beq 0 0 15 ∧
    ready 1023 (returnState (.bne 0 3 15)) = true ∧ (returnState (.bne 0 3 15)).reg 15 = callState.pc + 1 ∧
    (returnState (.bne 0 3 15)).slot 9 = .bne 0 3 15 ∧
    (returnState (.bne 0 3 15)).reg 0 ≠ (returnState (.bne 0 3 15)).reg 3 ∧
    ready 1023 (returnState (.j 15)) = true ∧ (returnState (.j 15)).reg 15 = callState.pc + 1 ∧
    (returnState (.j 15)).slot 9 = .j 15 := by decide
theorem witness_RegistersWrittenOnlyBy : nextIs (exec (.j 1) State.reset) (fun t => t.reg 15 != State.reset.reg 15) = true := by
  decide
theorem witness_MemoryWrittenOnlyBy :
    State.reset.mem.wf = true ∧ nextIs (exec (.write 0 .halt) State.reset) (fun t => t.slot 0 != State.reset.slot 0) = true ∧
    nextIs (exec (.copy 0 1) (st 0 [(1, 9)] [(9, .halt)])) (fun t => t.slot 0 != .nop) = true := by decide
theorem witness_StatusAndTraceNeverRead : nextIs (exec .nop State.reset) (fun _ => true) = true ∧
    nextIs (exec .nop (State.reset.emit "x")) (fun _ => true) = true ∧ (State.reset.emit "x").mem = State.reset.mem := by
  decide
theorem witness_HaltedNormallyOnlyByHalt :
    nextIs (step (st 0 [] [(0, .halt)])) (fun t => t.status == .haltedNormally) = true := by decide +kernel
theorem witness_RuntimeFaultConditions : nextIs (step (st 1024 [] [])) (fun t => t.status.code == 2) = true ∧
    nextIs (step (st 0 [(1, 1024)] [(0, .copy 1 0)])) (fun t => t.status.code == 2) = true ∧
    nextIs (step (st 0 [(1, 1024)] [(0, .write 1 .nop)])) (fun t => t.status.code == 2) = true ∧
    nextIs (step (st 0 [] [(0, .div 1 1 1)])) (fun t => t.status.code == 2) = true ∧
    nextIs (step (st 1023 [] [])) (fun t => t.status.code == 0) = true := by decide +kernel
theorem witness_FaultsArePrecise : nextIs (step (st 1024 [] [])) (fun t =>
    t.status == .haltedOnError "error: program counter out of bounds: 1024") = true := by decide +kernel
/-- Slot 1022 writes slot 1023, by `write` and by `copy`. -/
def writesNext : State := st 1022 [(1, 1023)] [(1022, .write 1 .halt)]
def copiesNext : State := st 1022 [(1, 1023), (2, 9)] [(1022, .copy 1 2), (9, .halt)]

theorem witness_NextStepExecutesWrittenSlot :
    ready 1022 writesNext = true ∧ (writesNext.reg 1).toNat = writesNext.pc.toNat + 1 ∧
    writesNext.slot 1022 = .write 1 .halt ∧ ready 1022 copiesNext = true ∧
    (copiesNext.reg 1).toNat = copiesNext.pc.toNat + 1 ∧ copiesNext.slot 1022 = .copy 1 2 ∧
    (copiesNext.reg 2).toNat < 1024 ∧ copiesNext.slot 9 = .halt := by decide
/-- The slot at pc overwrites itself, by `write` (M9, with a `print` after it) and by `copy` in the last slot. -/
def writesItself : State := st 10 [(0, 10)] [(10, .write 0 .halt), (11, .print)]
def copiesOntoItself : State := st 1023 [(0, 1023), (1, 9)] [(1023, .copy 0 1), (9, .halt)]

theorem witness_WriteOntoOwnSlot : ready 1022 writesItself = true ∧ writesItself.reg 0 = writesItself.pc ∧
    writesItself.slot 10 = .write 0 .halt ∧ writesItself.slot 11 = .print ∧
    ready 1023 copiesOntoItself = true ∧ copiesOntoItself.reg 0 = copiesOntoItself.pc ∧
    copiesOntoItself.slot 1023 = .copy 0 1 ∧ (copiesOntoItself.reg 1).toNat < 1024 ∧
    copiesOntoItself.slot 9 = .halt := by decide
theorem witness_InvariantAfterLoadAndAbort : load [.halt] = .ok (loadedState [.halt]) := by rfl
theorem witness_StepKeepsInvariant : (st 5 [(1, 9)] [(5, .halt)]).Inv ∧
    nextIs (step (st 5 [(1, 9)] [(5, .halt)])) (fun _ => true) = true :=
  ⟨⟨by decide, by decide, fun _ h => (by cases h), fun _ h => (by cases h)⟩, by decide⟩
theorem witness_EndedRunHasFinalLine : ∃ s t, load [.halt] = .ok s ∧ Reaches s t ∧ t.status ≠ .running :=
  ⟨_, _, rfl, .stepped (.start _) rfl, by decide⟩
theorem witness_EndedRunHasFinalLine_error :
    ∃ s t m, load [.nop] = .ok s ∧ Reaches s t ∧ t.status = .haltedOnError m :=
  ⟨_, (loadedState [.nop]).abort, _, rfl, .cancelled (.start _), rfl⟩
theorem witness_TraceIsAppendOnly : Reaches State.reset State.reset.abort := .cancelled (.start _)
theorem witness_NestingDepthNeverGrows : State.reset.mem.wf = true ∧ Reaches State.reset State.reset ∧
    ∀ a, nestingDepth (State.reset.slot a) ≤ 0 :=
  ⟨by decide, .start _, fun _ => Nat.le_refl 0⟩
theorem witness_RunReturnsHaltedState : (runFor 1 (st 0 [] [(0, .halt)])).isSome = true := by decide +kernel
theorem witness_NoImplicitHaltAtEndOfMemory : State.reset.status = .running ∧ State.reset.pc.toNat ≤ 1024 ∧
    ∀ a, State.reset.pc.toNat ≤ a → a < 1024 → State.reset.slot a = .nop :=
  ⟨by decide, by decide, fun _ _ _ => rfl⟩
/-- C11. -/
theorem witness_RelativeJumpByZeroNeverEnds : (st 10 [] [(10, .rj 1)]).status = .running ∧
    (st 10 [] [(10, .rj 1)]).pc.toNat < 1024 ∧ (st 10 [] [(10, .rj 1)]).slot 10 = .rj 1 ∧
    (st 10 [] [(10, .rj 1)]).reg 1 = 0 := by decide
theorem witness_AbortEndsRun : State.reset.status = .running := by decide

end Sys2Proof.Tests
end

section
/-! The frame of every instruction on the register file (rule R23). -/

namespace Sys2Proof.Machine

/-- The register an instruction writes: the destination of `mov`, `add`, `sub`, `mul` and `div`, the link of `j`. The
first register of `copy` and `write` holds an address and is only read (rule R24). -/
def writtenReg? : Instr → Option Reg
  | .mov rd _ => some rd
  | .add rd _ _ => some rd
  | .sub rd _ _ => some rd
  | .mul rd _ _ => some rd
  | .div rd _ _ => some rd
  | .j _ => some Config.linkReg
  | .nop | .print | .printr | .copy .. | .beq .. | .bne .. | .rj .. | .write .. | .halt => none

theorem writtenReg?_eq_some {i : Instr} {r : Reg} (h : writtenReg? i = some r) :
    (∃ imm, i = .mov r imm) ∨ (∃ ra rb, i = .add r ra rb) ∨ (∃ ra rb, i = .sub r ra rb) ∨
      (∃ ra rb, i = .mul r ra rb) ∨ (∃ ra rb, i = .div r ra rb) ∨ (∃ rt, i = .j rt ∧ r = 15) := by
  cases i with
  | mov | add | sub | mul | div | j => cases h; simp
  | nop | print | printr | copy | beq | bne | rj | write | halt => cases h

/-- `div` writes its destination only, and with a zero divisor no register at all (rule R184). -/
theorem execDiv_reg_of_ne {rd ra rb r : Reg} {s t : State} (h : execDiv rd ra rb s = .next t) (hr : r ≠ rd) :
    t.reg r = s.reg r := by
  by_cases h0 : s.reg rb = 0
  · rw [execDiv_of_zero rd ra rb s h0] at h
    cases h
    exact State.raise_reg ..
  · rw [execDiv_of_ne_zero rd ra rb s h0] at h
    cases h
    rw [State.reg_writeResult, if_neg hr]

theorem execCopy_reg {rd rs : Reg} {s t : State} (h : execCopy rd rs s = .next t) (r : Reg) : t.reg r = s.reg r := by
  rcases Nat.lt_or_ge (s.reg rs).toNat 1024 with hs | hs
  · rcases Nat.lt_or_ge (s.reg rd).toNat 1024 with hd | hd
    · rw [execCopy_of_in rd rs s hs hd] at h
      cases h
      rw [State.advance_reg, State.setSlot_reg]
    · rw [execCopy_of_dst_out rd rs s hs hd] at h
      cases h
      exact State.raise_reg ..
  · rw [execCopy_of_src_out rd rs s hs] at h
    cases h
    exact State.raise_reg ..

theorem execWrite_reg {rd : Reg} {ins : Instr} {s t : State} (h : execWrite rd ins s = .next t) (r : Reg) :
    t.reg r = s.reg r := by
  rcases Nat.lt_or_ge (s.reg rd).toNat 1024 with hd | hd
  · rw [execWrite_of_in rd ins s hd] at h
    cases h
    rw [State.advance_reg, State.setSlot_reg]
  · rw [execWrite_of_out rd ins s hd] at h
    cases h
    exact State.raise_reg ..

/-- The frame of `exec` on the register file: every register but `writtenReg?` keeps its value. -/
theorem exec_reg_of_writtenReg?_ne {i : Instr} {s t : State} {r : Reg} (h : exec i s = .next t)
    (hr : writtenReg? i ≠ some r) : t.reg r = s.reg r := by
  have ne_of_written {q : Reg} (hi : writtenReg? i = some q) : r ≠ q := fun hq => hr (hq ▸ hi)
  cases i with
  | nop | print | printr | rj | halt => cases h; rfl
  | beq | bne => cases h; exact State.branch_reg ..
  | mov => cases h; rw [State.advance_reg, State.reg_setReg, if_neg (ne_of_written rfl)]
  | add | sub | mul => cases h; rw [State.reg_writeResult, if_neg (ne_of_written rfl)]
  | j => cases h; rw [State.setPc_reg, State.reg_setReg, if_neg (ne_of_written rfl)]
  | div => exact execDiv_reg_of_ne h (ne_of_written rfl)
  | copy => exact execCopy_reg h r
  | write => exact execWrite_reg h r

/-- Settles O43: a register that changed is the one `writtenReg?` names, by the frame of `exec`. -/
theorem registersWrittenOnlyBy : Obligations.RegistersWrittenOnlyBy := by
  unfold Obligations.RegistersWrittenOnlyBy
  intro i s t r h hne
  have hw : writtenReg? i = some r := by
    by_contra hr
    exact hne (exec_reg_of_writtenReg?_ne h hr)
  exact writtenReg?_eq_some hw

end Sys2Proof.Machine
end

section
/-! Move and arithmetic (rules R120 to R122 and R124): the instructions that write one result and go on. -/

namespace Sys2Proof.Machine

/-- Frame of writing one register and going on to the next slot. -/
theorem State.setReg_advance_frame (s : State) (rd : Reg) (v : Word) :
    SameRegsBut rd s (s.setReg rd v).advance ∧ SameSlots s (s.setReg rd v).advance ∧
      SameOutput s (s.setReg rd v).advance ∧ (s.setReg rd v).advance.pc = s.pc + 1 := by
  have hregs : SameRegsBut rd s (s.setReg rd v).advance := by
    intro r hr
    rw [State.advance_reg, State.reg_setReg, if_neg hr]
  have hout : SameOutput s (s.setReg rd v).advance := ⟨State.advance_trace _, State.advance_status _⟩
  exact ⟨hregs, fun a => State.advance_slot _ a, hout, State.advance_pc _⟩

/-- A result is written modulo 2^64 (rule R11), with the frame of `setReg_advance_frame`. -/
theorem State.writeResult_effect (s : State) (rd : Reg) (n : Int) :
    (((s.writeResult rd n).reg rd).toNat : Int) = n % 2 ^ 64 ∧ SameRegsBut rd s (s.writeResult rd n) ∧
      SameSlots s (s.writeResult rd n) ∧ SameOutput s (s.writeResult rd n) ∧ (s.writeResult rd n).pc = s.pc + 1 := by
  refine ⟨?_, s.setReg_advance_frame rd (wrap64 n)⟩
  rw [State.reg_writeResult, if_pos rfl, wrap64_toNat]

/-- Settles O17: the next state is `s.advance`. -/
theorem nopOnlyAdvances : Obligations.NopOnlyAdvances := by
  unfold Obligations.NopOnlyAdvances
  intro s
  have hout : SameOutput s s.advance := ⟨s.advance_trace, s.advance_status⟩
  exact ⟨s.advance, rfl, s.advance_reg, s.advance_slot, hout, s.advance_pc⟩

/-- Settles O18: read after write gives the immediate, and the frame is that of `setReg` and `advance`. -/
theorem movStoresImmediate : Obligations.MovStoresImmediate := by
  unfold Obligations.MovStoresImmediate
  intro rd imm s
  have hrd : (s.setReg rd imm).advance.reg rd = imm := by
    rw [State.advance_reg, State.reg_setReg, if_pos rfl]
  exact ⟨(s.setReg rd imm).advance, rfl, hrd, s.setReg_advance_frame rd imm⟩

/-- Settles O19, by `writeResult_effect` for the exact sum. -/
theorem addWrapsSum : Obligations.AddWrapsSum := by
  unfold Obligations.AddWrapsSum
  intro rd ra rb s
  exact ⟨s.writeResult rd ((s.reg ra).toInt + (s.reg rb).toInt), rfl, s.writeResult_effect rd _⟩

/-- Settles O21, by `writeResult_effect` for the exact product. -/
theorem mulWrapsProduct : Obligations.MulWrapsProduct := by
  unfold Obligations.MulWrapsProduct
  intro rd ra rb s
  exact ⟨s.writeResult rd ((s.reg ra).toInt * (s.reg rb).toInt), rfl, s.writeResult_effect rd _⟩

end Sys2Proof.Machine
end

section
/-! The conditional branches (rules R160 and R161): one shared operation, `State.branch`, with opposite conditions. -/

namespace Sys2Proof.Machine

/-- Frame of a branch, taken or not: only the pc moves. -/
theorem State.branch_frame (s : State) (taken : Bool) (rt : Reg) :
    SameRegs s (s.branch taken rt) ∧ SameSlots s (s.branch taken rt) ∧ SameOutput s (s.branch taken rt) := by
  have hout : SameOutput s (s.branch taken rt) := ⟨s.branch_trace taken rt, s.branch_status taken rt⟩
  exact ⟨s.branch_reg taken rt, s.branch_slot taken rt, hout⟩

theorem State.branch_pc_of_taken {s : State} {taken : Bool} (h : taken = true) (rt : Reg) :
    (s.branch taken rt).pc = s.reg rt := by
  rw [State.branch_pc, if_pos h]

theorem State.branch_pc_of_not_taken {s : State} {taken : Bool} (h : taken = false) (rt : Reg) :
    (s.branch taken rt).pc = s.pc + 1 := by
  rw [State.branch_pc, if_neg (by simp [h])]

/-- Settles O34: the branch is taken when `regsEqual` is true; its frame is `branch_frame`. -/
theorem beqBranchesOnEqual : Obligations.BeqBranchesOnEqual := by
  unfold Obligations.BeqBranchesOnEqual
  intro ra rb rt s
  refine ⟨s.branch (s.regsEqual ra rb) rt, rfl, fun heq => ?_, fun hne => ?_, s.branch_frame _ rt⟩
  · exact State.branch_pc_of_taken ((s.regsEqual_eq_true ra rb).mpr heq) rt
  · exact State.branch_pc_of_not_taken ((s.regsEqual_eq_false ra rb).mpr hne) rt

/-- Settles O35: the branch is taken when `regsEqual` is false; its frame is `branch_frame`. -/
theorem bneBranchesOnDifferent : Obligations.BneBranchesOnDifferent := by
  unfold Obligations.BneBranchesOnDifferent
  intro ra rb rt s
  refine ⟨s.branch (!s.regsEqual ra rb) rt, rfl, fun hne => ?_, fun heq => ?_, s.branch_frame _ rt⟩
  · have htaken : (!s.regsEqual ra rb) = true := by rw [(s.regsEqual_eq_false ra rb).mpr hne, Bool.not_false]
    exact State.branch_pc_of_taken htaken rt
  · have hnot : (!s.regsEqual ra rb) = false := by rw [(s.regsEqual_eq_true ra rb).mpr heq, Bool.not_true]
    exact State.branch_pc_of_not_taken hnot rt

end Sys2Proof.Machine
end

section
/-! HaltedNormally: entered by `halt` alone and never left (rule R187). -/

namespace Sys2Proof.Machine

/-- Only a Running engine has a step (rule R46, decision D16). -/
theorem status_running_of_step {s t : State} (h : step s = .next t) : s.status = .running := by
  cases step_inversion h with
  | guardFault hr => exact hr
  | executed hr => exact hr

/-- Of all instructions only `halt` takes a Running engine to HaltedNormally (rule R187). -/
theorem eq_halt_of_exec_haltedNormally {i : Instr} {s t : State} (hr : s.status = .running)
    (h : exec i s = .next t) (ht : t.status = .haltedNormally) : i = .halt := by
  cases exec_inversion h with
  | faulted f => rw [State.raise_status] at ht; cases ht
  | halted hi => exact hi
  | wentOn _ _ hst => rw [hst, hr] at ht; cases ht

/-- Settles O46: `exec_inversion` leaves `halt` as the only way into HaltedNormally, and only a Running state has a
step. -/
theorem haltedNormallyOnlyByHalt : Obligations.HaltedNormallyOnlyByHalt := by
  unfold Obligations.HaltedNormallyOnlyByHalt
  refine ⟨fun s t h ht => ?_, fun s => ?_⟩
  · cases step_inversion h with
    | guardFault => rw [State.raise_status] at ht; cases ht
    | executed hr hpc u hx =>
      rw [State.endOfRun_status] at ht
      exact ⟨hpc, eq_halt_of_exec_haltedNormally hr hx ht⟩
  · have hst : s.haltNormally.status = .haltedNormally := s.haltNormally_status
    have hmsg : s.haltNormally.status.msg = "" := by rw [hst]; rfl
    refine ⟨s.haltNormally, rfl, hst, hmsg, fun u hu => ?_⟩
    have hrun := status_running_of_step hu
    rw [hst] at hrun
    cases hrun

end Sys2Proof.Machine
end

section
/-! The state after reset is what LOAD of the empty program leaves (rule R210, log entry 2). -/

namespace Sys2Proof.Machine

theorem State.reset_eq_loadedState_nil : State.reset = loadedState [] := rfl

theorem Status.msg_running : Status.running.msg = "" := rfl

/-- Settles O1: reset is LOAD of the empty program, whose state has every register and pc 0 and is Running, and the MSG
of a Running engine is empty. -/
theorem resetRegistersPcStatus : Obligations.ResetRegistersPcStatus := by
  unfold Obligations.ResetRegistersPcStatus
  rw [State.reset_eq_loadedState_nil]
  have hst : (loadedState []).status = .running := loadedState_status []
  have hmsg : (loadedState []).status.msg = "" := by rw [hst, Status.msg_running]
  exact ⟨loadedState_reg [], loadedState_pc [], hst, hmsg⟩

end Sys2Proof.Machine
end

section
/-! The header word of the serialised form (rules R88 to R92): what the decoder reads from it, and the rows of the opcode
table. -/

namespace Sys2Proof

/-- What the header word of an instruction says (rule R88). -/
def headerMeaningOf : Instr → HeaderMeaning
  | .mov rd _ => .movTo rd
  | .write rd _ => .writeTo rd
  | i => .whole i

/-- The decoder reads a header word back, row by row of rule R89. -/
theorem decodeHeader_headerOf (i : Instr) : decodeHeader (headerOf i) = .ok (headerMeaningOf i) := by
  cases i <;> simp [decodeHeader, headerOf, requireZero, headerMeaningOf]

theorem headerWord_of_fields {w : HalfWord} {t a b c : BitVec 4} (ht : tagField w = t) (ha : field1 w = a)
    (hb : field2 w = b) (hc : field3 w = c) : headerWord t a b c = w := by
  rw [← ht, ← ha, ← hb, ← hc, headerWord_fields]

theorem tagField_of_toNat {w : HalfWord} {n : Nat} (h : (tagField w).toNat = n) : tagField w = BitVec.ofNat 4 n := by
  rw [← h, BitVec.ofNat_toNat, BitVec.setWidth_eq]

theorem exists_headerOf_whole {i : Instr} {w : HalfWord} (hw : headerOf i = w) (hm : headerMeaningOf i = .whole i) :
    ∃ j, headerOf j = w ∧ headerMeaningOf j = .whole i := ⟨i, hw, hm⟩

/-- The inversion lemma of `decodeHeader`: what it accepts is the header word of an instruction (rules R90, R92). -/
theorem decodeHeader_inversion {w : HalfWord} {m : HeaderMeaning} (h : decodeHeader w = .ok m) :
    ∃ i, headerOf i = w ∧ headerMeaningOf i = m := by
  unfold decodeHeader at h
  split at h
  -- TAG 15 is reserved.
  case h_16 => cases h
  all_goals
    rename_i htag
    replace htag := tagField_of_toNat htag
    obtain ⟨hzero, rfl⟩ := requireZero_eq_ok.mp h
  -- No operand: `nop`, `print`, `printr`, `halt`.
  case h_1 | h_7 | h_8 | h_15 =>
    obtain ⟨h1, h2, h3⟩ : field1 w = 0 ∧ field2 w = 0 ∧ field3 w = 0 := by simpa using hzero
    exact exists_headerOf_whole (headerWord_of_fields htag h1 h2 h3) rfl
  -- Three operands: `add`, `sub`, `mul`, `div`, `beq`, `bne`.
  case h_3 | h_4 | h_5 | h_6 | h_10 | h_11 =>
    exact exists_headerOf_whole (headerWord_of_fields htag rfl rfl rfl) rfl
  -- Two operands: `copy`.
  case h_9 =>
    have h3 : field3 w = 0 := by simpa using hzero
    exact exists_headerOf_whole (headerWord_of_fields htag rfl rfl h3) rfl
  -- One operand: `j`, `rj`, and the two with a payload, `mov` and `write`.
  all_goals obtain ⟨h2, h3⟩ : field2 w = 0 ∧ field3 w = 0 := by simpa using hzero
  case h_12 | h_13 => exact exists_headerOf_whole (headerWord_of_fields htag rfl h2 h3) rfl
  case h_2 => exact ⟨.mov (field1 w) 0, headerWord_of_fields htag rfl h2 h3, rfl⟩
  case h_14 => exact ⟨.write (field1 w) .nop, headerWord_of_fields htag rfl h2 h3, rfl⟩

theorem exists_opcodeRowOf {row : OpcodeRow} (h : row ∈ opcodeRows) : ∃ i, opcodeRowOf i = row := by
  obtain ⟨i, -, hi⟩ := List.mem_map.mp h
  exact ⟨i, hi⟩

theorem opcodeRowOf_mem (i : Instr) : opcodeRowOf i ∈ opcodeRows := by
  cases i <;> simp [opcodeRows, opcodeRowOf]

/-- The header word of every instruction belongs to its row of the table. -/
theorem covers_headerOf (i : Instr) : (opcodeRowOf i).covers (headerOf i) = true := by
  cases i with
  | nop => exact Laws.HeaderMatchesRow.nop.2
  | mov rd imm => exact (Laws.HeaderMatchesRow.mov rd imm).2
  | add rd ra rb => exact (Laws.HeaderMatchesRow.add rd ra rb).2
  | sub rd ra rb => exact (Laws.HeaderMatchesRow.sub rd ra rb).2
  | mul rd ra rb => exact (Laws.HeaderMatchesRow.mul rd ra rb).2
  | div rd ra rb => exact (Laws.HeaderMatchesRow.div rd ra rb).2
  | print => exact Laws.HeaderMatchesRow.print.2
  | printr => exact Laws.HeaderMatchesRow.printr.2
  | copy rd rs => exact (Laws.HeaderMatchesRow.copy rd rs).2
  | beq ra rb rt => exact (Laws.HeaderMatchesRow.beq ra rb rt).2
  | bne ra rb rt => exact (Laws.HeaderMatchesRow.bne ra rb rt).2
  | j rt => exact (Laws.HeaderMatchesRow.j rt).2
  | rj rt => exact (Laws.HeaderMatchesRow.rj rt).2
  | write rd ins => exact (Laws.HeaderMatchesRow.write rd ins).2
  | halt => exact Laws.HeaderMatchesRow.halt.2

theorem headerWord_inj {t a b c t' a' b' c' : BitVec 4} :
    headerWord t a b c = headerWord t' a' b' c' ↔ t = t' ∧ a = a' ∧ b = b' ∧ c = c' := by
  constructor
  · intro h
    exact ⟨by simpa using congrArg tagField h, by simpa using congrArg field1 h, by simpa using congrArg field2 h,
      by simpa using congrArg field3 h⟩
  · rintro ⟨rfl, rfl, rfl, rfl⟩
    rfl

/-- A word belongs to a row where each of its fields agrees with the pattern under the mask. -/
theorem covers_iff_fields (row : OpcodeRow) (w : HalfWord) : row.covers w = true ↔
    tagField w &&& tagField row.mask = tagField row.pattern ∧ field1 w &&& field1 row.mask = field1 row.pattern ∧
      field2 w &&& field2 row.mask = field2 row.pattern ∧ field3 w &&& field3 row.mask = field3 row.pattern := by
  rw [OpcodeRow.covers, beq_iff_eq, ← headerWord_inj, ← Laws.headerWord_and, headerWord_fields, headerWord_fields,
    headerWord_fields]

/-- A field that the mask keeps whole is the pattern's. -/
theorem eq_of_and_full_mask {f m p : BitVec 4} (h : f &&& m = p) (hm : m = 15) : f = p := by
  subst hm
  exact BitVec.and_allOnes.symm.trans h

/-- Every mask of the table keeps the whole TAG. -/
theorem tagField_mask : ∀ row ∈ opcodeRows, tagField row.mask = 15 := by decide

theorem tagField_of_covers {row : OpcodeRow} {w : HalfWord} (hrow : row ∈ opcodeRows) (h : row.covers w = true) :
    tagField w = tagField row.pattern :=
  eq_of_and_full_mask ((covers_iff_fields row w).mp h).1 (tagField_mask row hrow)

/-- A word of a row of the table is the header word of an instruction: the fields outside the mask are its operands. -/
theorem exists_headerOf_of_covers {w : HalfWord} (i : Instr) (h : (opcodeRowOf i).covers w = true) :
    ∃ j, headerOf j = w := by
  have htag := tagField_of_covers (opcodeRowOf_mem i) h
  obtain ⟨-, h1, h2, h3⟩ := (covers_iff_fields _ w).mp h
  replace h1 := eq_of_and_full_mask h1
  replace h2 := eq_of_and_full_mask h2
  replace h3 := eq_of_and_full_mask h3
  cases i <;> dsimp only [opcodeRowOf] at htag h1 h2 h3
  case nop => exact ⟨.nop, headerWord_of_fields htag (h1 rfl) (h2 rfl) (h3 rfl)⟩
  case print => exact ⟨.print, headerWord_of_fields htag (h1 rfl) (h2 rfl) (h3 rfl)⟩
  case printr => exact ⟨.printr, headerWord_of_fields htag (h1 rfl) (h2 rfl) (h3 rfl)⟩
  case halt => exact ⟨.halt, headerWord_of_fields htag (h1 rfl) (h2 rfl) (h3 rfl)⟩
  case mov rd imm => exact ⟨.mov (field1 w) imm, headerWord_of_fields htag rfl (h2 rfl) (h3 rfl)⟩
  case j => exact ⟨.j (field1 w), headerWord_of_fields htag rfl (h2 rfl) (h3 rfl)⟩
  case rj => exact ⟨.rj (field1 w), headerWord_of_fields htag rfl (h2 rfl) (h3 rfl)⟩
  case write rd ins => exact ⟨.write (field1 w) ins, headerWord_of_fields htag rfl (h2 rfl) (h3 rfl)⟩
  case copy => exact ⟨.copy (field1 w) (field2 w), headerWord_of_fields htag rfl rfl (h3 rfl)⟩
  case add => exact ⟨.add (field1 w) (field2 w) (field3 w), headerWord_of_fields htag rfl rfl rfl⟩
  case sub => exact ⟨.sub (field1 w) (field2 w) (field3 w), headerWord_of_fields htag rfl rfl rfl⟩
  case mul => exact ⟨.mul (field1 w) (field2 w) (field3 w), headerWord_of_fields htag rfl rfl rfl⟩
  case div => exact ⟨.div (field1 w) (field2 w) (field3 w), headerWord_of_fields htag rfl rfl rfl⟩
  case beq => exact ⟨.beq (field1 w) (field2 w) (field3 w), headerWord_of_fields htag rfl rfl rfl⟩
  case bne => exact ⟨.bne (field1 w) (field2 w) (field3 w), headerWord_of_fields htag rfl rfl rfl⟩

/-- Settles O8: the words accepted and the words of the table are both the header words of the instructions. -/
theorem headerAcceptedIffInTable : Obligations.HeaderAcceptedIffInTable := by
  unfold Obligations.HeaderAcceptedIffInTable
  intro w
  constructor
  · rintro ⟨m, hm⟩
    obtain ⟨i, rfl, -⟩ := decodeHeader_inversion hm
    exact ⟨opcodeRowOf i, opcodeRowOf_mem i, covers_headerOf i⟩
  · rintro ⟨row, hrow, hw⟩
    obtain ⟨i, rfl⟩ := exists_opcodeRowOf hrow
    obtain ⟨j, rfl⟩ := exists_headerOf_of_covers i hw
    exact ⟨headerMeaningOf j, decodeHeader_headerOf j⟩

/-- TAG alone tells the rows of the table apart. -/
theorem tagField_pattern_nodup : (opcodeRows.map fun row => tagField row.pattern).Nodup := by decide

/-- Settles O7: a word of both rows has the TAG of both. -/
theorem opcodeRowsDisjoint : Obligations.OpcodeRowsDisjoint := by
  unfold Obligations.OpcodeRowsDisjoint
  intro w r₁ r₂ h₁ h₂ hw₁ hw₂
  have htag : tagField r₁.pattern = tagField r₂.pattern :=
    (tagField_of_covers h₁ hw₁).symm.trans (tagField_of_covers h₂ hw₂)
  exact List.inj_on_of_nodup_map tagField_pattern_nodup h₁ h₂ htag

/-! ### Decoding by cases of the header word -/

theorem decode_of_whole {w : HalfWord} {i : Instr} (h : decodeHeader w = .ok (.whole i)) (ws : List HalfWord) :
    decode (w :: ws) = .ok (i, ws) := by
  rw [decode, h]

theorem decode_of_movTo {w : HalfWord} {rd : Reg} (h : decodeHeader w = .ok (.movTo rd)) (imm : Word)
    (rest : List HalfWord) : decode (w :: (immWords imm ++ rest)) = .ok (.mov rd imm, rest) := by
  rw [decode, h]
  simp [immWords]

theorem decode_of_writeTo {w : HalfWord} {rd : Reg} {ins : Instr} {ws rest : List HalfWord}
    (h : decodeHeader w = .ok (.writeTo rd)) (hins : decode ws = .ok (ins, rest)) :
    decode (w :: ws) = .ok (.write rd ins, rest) := by
  rw [decode, h]
  simp [hins]

theorem decode_of_header_error {w : HalfWord} {e : DecodeError} (h : decodeHeader w = .error e) (ws : List HalfWord) :
    decode (w :: ws) = .error e := by
  rw [decode, h]

/-- Settles O9, by induction on the nesting of `write` literals. -/
theorem decodeOfEncode : Obligations.DecodeOfEncode := by
  unfold Obligations.DecodeOfEncode
  intro i
  induction i with
  | mov rd imm => exact decode_of_movTo (decodeHeader_headerOf (.mov rd imm)) imm
  | write rd ins ih => exact fun rest => decode_of_writeTo (decodeHeader_headerOf (.write rd ins)) (ih rest)
  | nop | add | sub | mul | div | print | printr | copy | beq | bne | j | rj | halt =>
    exact decode_of_whole (decodeHeader_headerOf _)

/-- What `decode` can answer for words that spell an instruction: the header word decides the payload. -/
inductive DecodeOutcome (w : HalfWord) (ws rest : List HalfWord) : Instr → Prop where
  | whole {i : Instr} (h : decodeHeader w = .ok (.whole i)) (hws : ws = rest) : DecodeOutcome w ws rest i
  | mov {rd : Reg} {imm : Word} (h : decodeHeader w = .ok (.movTo rd)) (hws : ws = immWords imm ++ rest) :
    DecodeOutcome w ws rest (.mov rd imm)
  | write {rd : Reg} {ins : Instr} (h : decodeHeader w = .ok (.writeTo rd)) (hins : decode ws = .ok (ins, rest)) :
    DecodeOutcome w ws rest (.write rd ins)

/-- The inversion lemma of `decode`. -/
theorem decode_inversion {w : HalfWord} {ws rest : List HalfWord} {i : Instr}
    (h : decode (w :: ws) = .ok (i, rest)) : DecodeOutcome w ws rest i := by
  unfold decode at h
  split at h
  next => cases h
  next i' hw =>
    cases h
    exact .whole hw rfl
  next rd hw =>
    split at h
    next => cases h; exact .mov hw (by simp)
    next => cases h
  next rd hw =>
    split at h
    next ins rest' hins => cases h; exact .write hw hins
    next => cases h

/-- An instruction that its header word says in whole has no payload. -/
theorem encode_of_whole {i j : Instr} (h : headerMeaningOf i = .whole j) : encode j = [headerOf i] := by
  cases i <;> cases h <;> rfl

/-- Settles O10, by induction on the words: each header word is that of an instruction, whose payload follows. -/
theorem encodeOfDecode : Obligations.EncodeOfDecode := by
  unfold Obligations.EncodeOfDecode
  intro ws
  induction ws with
  | nil => intro i rest h; cases h
  | cons w ws ih =>
    intro i rest h
    cases decode_inversion h with
    | whole hw hws =>
      obtain ⟨j, rfl, hj⟩ := decodeHeader_inversion hw
      rw [encode_of_whole hj, hws]
      rfl
    | mov hw hws =>
      obtain ⟨j, rfl, hj⟩ := decodeHeader_inversion hw
      cases j <;> cases hj
      rw [hws]
      rfl
    | write hw hins =>
      obtain ⟨j, rfl, hj⟩ := decodeHeader_inversion hw
      cases j <;> cases hj
      rw [ih _ _ hins]
      rfl

/-- Settles O11: each list of words is evaluated by the decoder. -/
theorem wordsOfTheSpecDecode : Obligations.WordsOfTheSpecDecode := by
  unfold Obligations.WordsOfTheSpecDecode
  decide

end Sys2Proof
end

section
/-! Serialised programs (log entry 14) and LOAD of them. -/

namespace Sys2Proof

theorem encodeProgram_cons (i : Instr) (p : List Instr) : encodeProgram (i :: p) = encode i ++ encodeProgram p := rfl

theorem decodeUpTo_nil (fuel : Nat) : decodeUpTo fuel [] = .ok [] := by
  cases fuel <;> rfl

/-- One instruction decoded, then the words after it. -/
theorem decodeUpTo_of_decode {fuel : Nat} {w : HalfWord} {ws rest : List HalfWord} {i : Instr}
    (h : decode (w :: ws) = .ok (i, rest)) :
    decodeUpTo (fuel + 1) (w :: ws) = (decodeUpTo fuel rest).map (i :: ·) := by
  rw [decodeUpTo, h]
  dsimp only
  cases decodeUpTo fuel rest <;> rfl

theorem decodeUpTo_of_decode_error {w : HalfWord} {ws : List HalfWord} {e : DecodeError}
    (h : decode (w :: ws) = .error e) (fuel : Nat) : ∃ e', decodeUpTo fuel (w :: ws) = .error e' := by
  cases fuel with
  | zero => exact ⟨.truncated, rfl⟩
  | succ fuel => exact ⟨e, by rw [decodeUpTo, h]⟩

theorem decodeUpTo_encode (i : Instr) (fuel : Nat) (ws : List HalfWord) :
    decodeUpTo (fuel + 1) (encode i ++ ws) = (decodeUpTo fuel ws).map (i :: ·) := by
  have hdec := decodeOfEncode i ws
  obtain ⟨payload, hi⟩ := encode_eq_cons i
  rw [hi] at hdec ⊢
  exact decodeUpTo_of_decode hdec

/-- The instructions of a serialised program come first; the fuel left over is for the words after it. -/
theorem decodeUpTo_encodeProgram (p : List Instr) (fuel : Nat) (ws : List HalfWord) :
    decodeUpTo (fuel + p.length) (encodeProgram p ++ ws) = (decodeUpTo fuel ws).map (p ++ ·) := by
  induction p with
  | nil => exact (congrFun Except.map_id (decodeUpTo fuel ws)).symm
  | cons i p ih =>
    rw [List.length_cons, ← Nat.add_assoc, encodeProgram_cons, List.append_assoc, decodeUpTo_encode, ih]
    cases decodeUpTo fuel ws <;> rfl

/-- Each instruction takes at least its header word. -/
theorem length_le_length_encodeProgram (p : List Instr) : p.length ≤ (encodeProgram p).length := by
  induction p with
  | nil => exact Nat.le_refl 0
  | cons i p ih =>
    obtain ⟨payload, hi⟩ := encode_eq_cons i
    rw [encodeProgram_cons, hi, List.length_cons, List.length_append, List.length_cons]
    omega

/-- Decoding a serialised program, with more words after it: enough fuel is left for those. -/
theorem decodeProgram_encodeProgram_append (p : List Instr) (ws : List HalfWord) :
    ∃ fuel, decodeProgram (encodeProgram p ++ ws) = (decodeUpTo fuel ws).map (p ++ ·) := by
  refine ⟨(encodeProgram p ++ ws).length - p.length, ?_⟩
  have hle : p.length ≤ (encodeProgram p ++ ws).length :=
    (length_le_length_encodeProgram p).trans (by simp)
  rw [← decodeUpTo_encodeProgram, Nat.sub_add_cancel hle, decodeProgram]

theorem decodeProgram_encodeProgram (p : List Instr) : decodeProgram (encodeProgram p) = .ok p := by
  obtain ⟨fuel, h⟩ := decodeProgram_encodeProgram_append p []
  rw [List.append_nil, decodeUpTo_nil] at h
  simpa [Except.map] using h

end Sys2Proof

namespace Sys2Proof.Machine

/-- Settles O4: the program is decoded back from its words. -/
theorem loadOfSerialisedProgram : Obligations.LoadOfSerialisedProgram := by
  unfold Obligations.LoadOfSerialisedProgram
  intro p
  rw [loadWords, decodeProgram_encodeProgram]

/-- Settles O3: LOAD of the words is LOAD of the program, which is too long. -/
theorem loadRefusesOversizedProgram : Obligations.LoadRefusesOversizedProgram := by
  unfold Obligations.LoadRefusesOversizedProgram
  intro p hp
  exact ⟨load_of_long p hp, (loadOfSerialisedProgram p).trans (load_of_long p hp)⟩

/-- A header word of no row of the table is refused by the decoder, whatever follows it. -/
theorem decode_error_of_not_covered {w : HalfWord} (h : ∀ row ∈ opcodeRows, row.covers w = false)
    (ws : List HalfWord) : ∃ e, decode (w :: ws) = .error e := by
  cases hw : decodeHeader w with
  | error e => exact ⟨e, decode_of_header_error hw ws⟩
  | ok m =>
    obtain ⟨row, hrow, hcov⟩ := (headerAcceptedIffInTable w).mp ⟨m, hw⟩
    rw [h row hrow] at hcov
    cases hcov

/-- Settles O5: the decoder gets past the program to the word that it refuses. -/
theorem loadRefusesInvalidWords : Obligations.LoadRefusesInvalidWords := by
  unfold Obligations.LoadRefusesInvalidWords
  intro p w ws h
  obtain ⟨e, he⟩ := decode_error_of_not_covered h ws
  obtain ⟨fuel, hp⟩ := decodeProgram_encodeProgram_append p (w :: ws)
  obtain ⟨e', he'⟩ := decodeUpTo_of_decode_error he fuel
  rw [he'] at hp
  exact ⟨e', by rw [loadWords, hp]; rfl⟩

end Sys2Proof.Machine
end

section
/-! Runtime faults and the ends of runs (rules R181 to R191): a fault is one line and HaltedOnError, and a halted engine
has no step. -/

namespace Sys2Proof.Machine

/-- What raising a fault does and leaves unchanged (rules R183, R184). -/
theorem State.raise_faultedWith (s : State) (f : RuntimeFault) : FaultedWith f.message s (s.raise f) :=
  ⟨s.raise_reg f, s.raise_slot f, s.raise_pc f, s.raise_trace f, s.raise_status f⟩

theorem step_ne_next_of_halted {s : State} (h : s.status ≠ .running) (t : State) : step s ≠ .next t :=
  fun ht => h (status_running_of_step ht)

theorem State.raise_status_ne_running (s : State) (f : RuntimeFault) : (s.raise f).status ≠ .running := by
  rw [State.raise_status]
  exact Status.noConfusion

/-- Settles O15, by the equation of a step out of bounds. -/
theorem fetchGuardEndsRun : Obligations.FetchGuardEndsRun := by
  unfold Obligations.FetchGuardEndsRun
  intro s hr hpc
  exact ⟨_, step_of_outOfBounds s hr hpc, s.raise_faultedWith (.pcOutOfBounds s.pc)⟩

/-- Settles O16, by the equations of a halted engine. -/
theorem haltedEngineStays : Obligations.HaltedEngineStays := by
  unfold Obligations.HaltedEngineStays
  intro s n h
  exact ⟨step_ne_next_of_halted h, runFor_of_halted s n h, abort_of_halted s h⟩

/-- Settles O60: ABORT of a Running engine is the cancellation fault. -/
theorem abortEndsRun : Obligations.AbortEndsRun := by
  unfold Obligations.AbortEndsRun
  intro s hr
  rw [abort_of_running s hr, ← message_aborted]
  exact ⟨s.raise_faultedWith .aborted, step_ne_next_of_halted (s.raise_status_ne_running _)⟩

/-- Settles O48: the inversion lemmas leave the guard's fault and the faults of instructions, each a `State.raise`. -/
theorem faultsArePrecise : Obligations.FaultsArePrecise := by
  unfold Obligations.FaultsArePrecise
  intro s t m h hm
  have of_raise (f : RuntimeFault) (hf : (s.raise f).status = .haltedOnError m) : FaultedWith m s (s.raise f) := by
    cases hf
    exact s.raise_faultedWith f
  cases step_inversion h with
  | guardFault => exact of_raise _ hm
  | executed hr hpc u hx =>
    rw [State.endOfRun_status] at hm
    cases exec_inversion hx with
    | faulted f => rw [State.endOfRun_raise]; exact of_raise f hm
    | halted => rw [State.haltNormally_status] at hm; cases hm
    | wentOn _ _ hst => rw [hst, hr] at hm; cases hm

/-- The rows of the table of rule R181 that an instruction can raise, with their conditions. -/
def faultsIn (s : State) (i : Instr) : Prop :=
  (∃ rd rs, i = .copy rd rs ∧ (1024 ≤ (s.reg rs).toNat ∨ 1024 ≤ (s.reg rd).toNat)) ∨
    (∃ rd ins, i = .write rd ins ∧ 1024 ≤ (s.reg rd).toNat) ∨ (∃ rd ra rb, i = .div rd ra rb ∧ s.reg rb = 0)

/-- An instruction takes a Running engine to HaltedOnError exactly where the table has a row for it. -/
theorem exec_error_iff {i : Instr} {s t : State} (hr : s.status = .running) (h : exec i s = .next t) :
    (∃ m, t.status = .haltedOnError m) ↔ faultsIn s i := by
  cases i with
  | nop | mov | add | sub | mul | print | printr | beq | bne | j | rj => cases h; simp [faultsIn, hr]
  | halt => cases h; simp [faultsIn]
  | div rd ra rb =>
    by_cases h0 : s.reg rb = 0
    · cases (execDiv_of_zero rd ra rb s h0).symm.trans h
      simp [faultsIn, h0]
    · cases (execDiv_of_ne_zero rd ra rb s h0).symm.trans h
      simpa [faultsIn, hr] using h0
  | copy rd rs =>
    rcases Nat.lt_or_ge (s.reg rs).toNat 1024 with hs | hs
    · rcases Nat.lt_or_ge (s.reg rd).toNat 1024 with hd | hd
      · cases (execCopy_of_in rd rs s hs hd).symm.trans h
        simp [faultsIn, hs, hd, hr]
      · cases (execCopy_of_dst_out rd rs s hs hd).symm.trans h
        simp [faultsIn, hd]
    · cases (execCopy_of_src_out rd rs s hs).symm.trans h
      simp [faultsIn, hs]
  | write rd ins =>
    rcases Nat.lt_or_ge (s.reg rd).toNat 1024 with hd | hd
    · cases (execWrite_of_in rd ins s hd).symm.trans h
      simp [faultsIn, hd, hr]
    · cases (execWrite_of_out rd ins s hd).symm.trans h
      simp [faultsIn, hd]

/-- Settles O47: the guard faults out of bounds, and in bounds the instruction at the pc decides. -/
theorem runtimeFaultConditions : Obligations.RuntimeFaultConditions := by
  unfold Obligations.RuntimeFaultConditions
  intro s t h
  cases step_inversion h with
  | guardFault hr hpc => exact iff_of_true ⟨_, s.raise_status _⟩ (Or.inl hpc)
  | executed hr hpc u hx =>
    rw [State.endOfRun_status, or_iff_right (Nat.not_le.mpr hpc)]
    exact exec_error_iff hr hx

end Sys2Proof.Machine
end

section
/-! LOAD and the host's operations (rules R40 to R43, R210 to R215). -/

namespace Sys2Proof.Machine

theorem loadedState_slot (p : List Instr) (hp : p.length ≤ 1024) (a : Nat) :
    (loadedState p).slot a = (p[a]?).getD .nop := Memory.read_ofProgram p hp a

/-- Settles O2, by the fields of the state that LOAD leaves. -/
theorem loadSetsWholeState : Obligations.LoadSetsWholeState := by
  unfold Obligations.LoadSetsWholeState
  intro p hp
  refine ⟨loadedState p, load_of_fits p hp, fun a ha => ?_, fun a ha _ => ?_, loadedState_reg p, loadedState_pc p,
    loadedState_trace p, loadedState_status p, Memory.wf_ofProgram p hp⟩
  · rw [loadedState_slot p hp, List.getElem?_eq_getElem ha, Option.getD_some]
  · rw [loadedState_slot p hp, List.getElem?_eq_none ha, Option.getD_none]

theorem perform_load_of_ok {p : List Instr} {s : State} (h : load p = .ok s) (e : Option State) :
    perform (.load p) e = (.loaded, some s) := by
  rw [perform, h, performLoad]

theorem perform_load_of_error {p : List Instr} {r : Refusal} (h : load p = .error r) (e : Option State) :
    perform (.load p) e = (.refused r, e) := by
  rw [perform, h, performLoad]

theorem perform_loadWords_of_ok {ws : List HalfWord} {s : State} (h : loadWords ws = .ok s) (e : Option State) :
    perform (.loadWords ws) e = (.loaded, some s) := by
  rw [perform, h, performLoad]

theorem perform_loadWords_of_error {ws : List HalfWord} {r : Refusal} (h : loadWords ws = .error r)
    (e : Option State) : perform (.loadWords ws) e = (.refused r, e) := by
  rw [perform, h, performLoad]

/-- Before the first LOAD the block refuses every other operation (rule R43). -/
theorem perform_none (op : HostOp) (hp : ∀ p, op ≠ .load p) (hw : ∀ ws, op ≠ .loadWords ws) :
    perform op none = (.refused .notLoaded, none) := by
  cases op with
  | load p => exact absurd rfl (hp p)
  | loadWords ws => exact absurd rfl (hw ws)
  | run | step | abort | readTrace | readStatus => rfl

theorem perform_step (s : State) : perform .step (some s) = ((stepsFor 1 s).statusReply, some (stepsFor 1 s)) := rfl

theorem perform_run (n : Nat) (s : State) :
    perform (.run n) (some s) = ((stepsFor n s).runReply, some (stepsFor n s)) := rfl

theorem perform_abort (s : State) : perform .abort (some s) = (s.abort.statusReply, some s.abort) := rfl

theorem State.statusReply_eq (s : State) : s.statusReply = .status s.status.code s.status.msg := rfl

theorem perform_run_of_runFor {n : Nat} {s t : State} (h : runFor n s = some t) :
    perform (.run n) (some s) = (.status t.status.code t.status.msg, some t) := by
  obtain ⟨hsteps, hhalted⟩ := (runFor_eq_some n s t).mp h
  rw [perform_run, hsteps, runReply_of_halted t hhalted, State.statusReply_eq]

/-- ABORT of a Running engine (rule R191): HaltedOnError has code 2 (decision D28), MSG is the line (decision D27). -/
theorem perform_abort_of_running {s : State} (h : s.status = .running) : ∃ t,
    perform .abort (some s) = (.status 2 "error: execution cancelled", some t) ∧
      FaultedWith "error: execution cancelled" s t := by
  refine ⟨s.abort, ?_, (abortEndsRun s h).1⟩
  rw [perform_abort, abort_of_running s h]
  rfl

/-- On a halted engine STEP, RUN and ABORT answer STATUS and change nothing (decisions D16, D19). -/
theorem perform_of_halted {s : State} (n : Nat) (h : s.status ≠ .running) :
    perform .step (some s) = (.status s.status.code s.status.msg, some s) ∧
      perform (.run n) (some s) = (.status s.status.code s.status.msg, some s) ∧
      perform .abort (some s) = (.status s.status.code s.status.msg, some s) := by
  refine ⟨?_, perform_run_of_runFor (runFor_of_halted s n h), ?_⟩
  · rw [perform_step, stepsFor_of_halted s 1 h, State.statusReply_eq]
  · rw [perform_abort, abort_of_halted s h, State.statusReply_eq]

/-- Settles O6, one operation at a time. -/
theorem hostOperationsOnBlock : Obligations.HostOperationsOnBlock := by
  unfold Obligations.HostOperationsOnBlock
  refine ⟨fun p e s h => perform_load_of_ok h e, fun p e r h => perform_load_of_error h e,
    fun ws e s h => perform_loadWords_of_ok h e, fun ws e r h => perform_loadWords_of_error h e, fun p e hp => ?_,
    fun p e hp => perform_load_of_error (load_of_long p hp) e, perform_none, fun s => ⟨rfl, rfl⟩, fun s t h => ?_,
    fun s h => ?_, fun n s t h => ?_, fun n s t h => perform_run_of_runFor h, fun s h => perform_abort_of_running h,
    fun s n h => perform_of_halted n h⟩
  · exact ⟨loadedState p, load_of_fits p hp, perform_load_of_ok (load_of_fits p hp) e⟩
  · rw [perform_step, stepsFor_one s h, State.statusReply_eq]
  · rw [perform_run, stepsFor, runReply_of_running s h]
  · rw [perform_run, perform_run, stepsFor_succ_of_step s n h]

end Sys2Proof.Machine
end

section
/-! The invariant of the engine: it holds after LOAD, and every step and ABORT keep it (rules R189, R211, decisions D15,
D17, D27). -/

namespace Sys2Proof.Machine

/-- While the engine is Running only memory and the lines of the trace matter. -/
theorem State.Inv.of_running {s : State} (hr : s.status = .running) (hm : s.mem.wf = true)
    (hl : ∀ l ∈ s.trace, printableLine l = true) : s.Inv where
  mem_wf := hm
  ended_has_trace h := absurd hr (by simpa using h)
  error_is_last m h := by rw [hr] at h; cases h
  lines_printable := hl

theorem State.Inv.printable_append {s : State} (h : s.Inv) {lines : List Line}
    (hl : ∀ l ∈ lines, printableLine l = true) : ∀ l ∈ s.trace ++ lines, printableLine l = true := by
  intro l hmem
  rcases List.mem_append.mp hmem with hs | hn
  · exact h.lines_printable l hs
  · exact hl l hn

/-- A fault with a printable message keeps the invariant: its line becomes the last one and MSG (decision D27). -/
theorem State.Inv.raise {s : State} (h : s.Inv) {f : RuntimeFault} (hf : printableLine f.message = true) :
    (s.raise f).Inv where
  mem_wf := h.mem_wf
  ended_has_trace _ := by simp
  error_is_last m hm := by
    rw [State.raise_status] at hm
    cases hm
    rw [State.raise_trace, List.getLast?_concat]
  lines_printable := by
    rw [State.raise_trace]
    exact h.printable_append (by simpa using hf)

/-- The step of a `halt` keeps the invariant: the sentinel stands for an empty trace (decision D15). -/
theorem State.Inv.endOfRun_haltNormally {s : State} (h : s.Inv) : s.haltNormally.endOfRun.Inv := by
  have not_error (m : Line) : s.haltNormally.endOfRun.status ≠ .haltedOnError m := by simp
  by_cases htr : s.trace = []
  · have heq : s.haltNormally.endOfRun = s.haltNormally.emit noOutputLine :=
      State.endOfRun_of_silent _ (by simp) htr
    rw [heq] at not_error ⊢
    exact ⟨h.mem_wf, fun _ => by simp, fun m hm => absurd hm (not_error m), by simp [htr]⟩
  · have heq : s.haltNormally.endOfRun = s.haltNormally := State.endOfRun_of_trace _ htr
    rw [heq] at not_error ⊢
    exact ⟨h.mem_wf, fun _ => htr, fun m hm => absurd hm (not_error m), h.lines_printable⟩

/-- Every instruction, with the end-of-run part after it, keeps the invariant. -/
theorem State.Inv.exec_endOfRun {i : Instr} {s u : State} (h : s.Inv) (hr : s.status = .running)
    (hx : exec i s = .next u) : u.endOfRun.Inv := by
  cases exec_inversion hx with
  | faulted f hp => rw [State.endOfRun_raise]; exact h.raise hp
  | halted => exact h.endOfRun_haltNormally
  | wentOn _ lines hst htr hp hm =>
    have hu : u.status = .running := hst.trans hr
    rw [State.endOfRun_of_running u hu]
    exact .of_running hu (hm h.mem_wf) (htr ▸ h.printable_append hp)

/-- Settles O53: a step is the fetch guard's fault or an instruction with the end-of-run part after it. -/
theorem stepKeepsInvariant : Obligations.StepKeepsInvariant := by
  unfold Obligations.StepKeepsInvariant
  intro s t h hstep
  cases step_inversion hstep with
  | guardFault => exact h.raise (printableLine_message _ (by simp))
  | executed hr hpc u hx => exact h.exec_endOfRun hr hx

theorem State.Inv.loadedState {p : List Instr} (hp : p.length ≤ 1024) : (loadedState p).Inv :=
  .of_running (loadedState_status p) (Memory.wf_ofProgram p hp) (by simp)

theorem State.Inv.abort {s : State} (h : s.Inv) : s.abort.Inv := by
  by_cases hr : s.status = .running
  · rw [abort_of_running s hr]
    exact h.raise (printableLine_message _ (by simp))
  · rwa [abort_of_halted s hr]

/-- Settles O52: a loaded state is Running with an empty trace, and ABORT is a fault or nothing. -/
theorem invariantAfterLoadAndAbort : Obligations.InvariantAfterLoadAndAbort := by
  unfold Obligations.InvariantAfterLoadAndAbort
  refine ⟨fun p s h => ?_, fun s h => h.abort⟩
  obtain ⟨hp, rfl⟩ := load_inversion h
  exact .loadedState hp

/-- Settles O51: reset is LOAD of the empty program. -/
theorem invariantAtReset : Obligations.InvariantAtReset := by
  unfold Obligations.InvariantAtReset
  rw [State.reset_eq_loadedState_nil]
  exact .loadedState (Nat.zero_le 1024)

theorem State.Inv.reaches {s t : State} (h : s.Inv) (hreach : Reaches s t) : t.Inv :=
  hreach.induct h stepKeepsInvariant fun _ hu => hu.abort

/-- Settles O54: the invariant holds at the end of the run. -/
theorem endedRunHasFinalLine : Obligations.EndedRunHasFinalLine := by
  unfold Obligations.EndedRunHasFinalLine
  intro p s t hload hreach hended
  have ht : t.Inv := (invariantAfterLoadAndAbort.1 p s hload).reaches hreach
  refine ⟨ht.ended_has_trace (by simpa using hended), fun m hm => ⟨ht.error_is_last m hm, ?_⟩⟩
  rw [hm]
  rfl

end Sys2Proof.Machine
end

section
/-! The trace is append-only (rule R36). -/

namespace Sys2Proof.Machine

theorem exec_trace_extends {i : Instr} {s t : State} (h : exec i s = .next t) : s.trace <+: t.trace := by
  cases exec_inversion h with
  | faulted f => exact ⟨_, (s.raise_trace f).symm⟩
  | halted => exact ⟨[], List.append_nil _⟩
  | wentOn _ lines _ htr => exact ⟨lines, htr.symm⟩

theorem State.trace_endOfRun_extends (s : State) : s.trace <+: s.endOfRun.trace := by
  unfold State.endOfRun
  split
  · exact ⟨[noOutputLine], rfl⟩
  · exact ⟨[], List.append_nil _⟩

theorem step_trace_extends {s t : State} (h : step s = .next t) : s.trace <+: t.trace := by
  cases step_inversion h with
  | guardFault => exact ⟨_, (s.raise_trace _).symm⟩
  | executed _ _ u hx => exact (exec_trace_extends hx).trans u.trace_endOfRun_extends

theorem State.trace_abort_extends (s : State) : s.trace <+: s.abort.trace := by
  by_cases hr : s.status = .running
  · rw [abort_of_running s hr]
    exact ⟨_, (s.raise_trace _).symm⟩
  · exact ⟨[], by rw [abort_of_halted s hr, List.append_nil]⟩

/-- Settles O55, by induction over the run: every step and ABORT extend the trace. -/
theorem traceIsAppendOnly : Obligations.TraceIsAppendOnly := by
  unfold Obligations.TraceIsAppendOnly
  intro s t hreach
  have hext : s.trace <+: t.trace := hreach.induct (P := fun u => s.trace <+: u.trace) ⟨[], List.append_nil _⟩
    (fun _ _ hu hstep => hu.trans (step_trace_extends hstep)) (fun u hu => hu.trans u.trace_abort_extends)
  obtain ⟨lines, hlines⟩ := hext
  exact ⟨lines, hlines.symm⟩

end Sys2Proof.Machine
end

section
/-! Arithmetic (rules R110 to R114, R123, R125): the narrowed results of `sub` and `div`, and readings of the others. -/

namespace Sys2Proof.Machine

/-- Settles O20, by `writeResult_effect` for the exact difference. -/
theorem subWrapsDifference : Obligations.SubWrapsDifference := by
  unfold Obligations.SubWrapsDifference
  intro rd ra rb s
  exact ⟨s.writeResult rd ((s.reg ra).toInt - (s.reg rb).toInt), rfl, s.writeResult_effect rd _⟩

theorem State.reg_writeResult_self (s : State) (rd : Reg) (n : Int) : (s.writeResult rd n).reg rd = wrap64 n := by
  rw [State.reg_writeResult, if_pos rfl]

/-- What `add`, `sub` and `mul` write, as operations of 64-bit words: the operands' signed reading is gone (rule R110). -/
theorem reg_of_exec_add {rd ra rb : Reg} {s t : State} (h : exec (.add rd ra rb) s = .next t) :
    t.reg rd = s.reg ra + s.reg rb := by
  cases h
  rw [State.reg_writeResult_self]
  exact wrap64_add _ _

theorem reg_of_exec_sub {rd ra rb : Reg} {s t : State} (h : exec (.sub rd ra rb) s = .next t) :
    t.reg rd = s.reg ra - s.reg rb := by
  cases h
  rw [State.reg_writeResult_self]
  exact wrap64_sub _ _

theorem reg_of_exec_mul {rd ra rb : Reg} {s t : State} (h : exec (.mul rd ra rb) s = .next t) :
    t.reg rd = s.reg ra * s.reg rb := by
  cases h
  rw [State.reg_writeResult_self]
  exact wrap64_mul _ _

theorem toNat_sub_emod (a b : Word) : ((a - b).toNat : Int) = ((a.toNat : Int) - (b.toNat : Int)) % 2 ^ 64 := by
  have ha := a.isLt
  have hb := b.isLt
  rw [BitVec.toNat_sub]
  omega

/-- Settles O22: each result is the operation of 64-bit words, which reads its operands unsigned. -/
theorem resultsSameForUnsignedReading : Obligations.ResultsSameForUnsignedReading := by
  unfold Obligations.ResultsSameForUnsignedReading
  intro rd ra rb s t
  refine ⟨fun h => ?_, fun h => ?_, fun h => ?_⟩
  · rw [reg_of_exec_mul h, BitVec.toNat_mul]
  · rw [reg_of_exec_add h, BitVec.toNat_add]
  · rw [reg_of_exec_sub h, toNat_sub_emod]

/-- The magnitude of the quotient (rule R112, decision D5). -/
theorem natAbs_truncDiv (a b : Int) : (truncDiv a b).natAbs = a.natAbs / b.natAbs := by
  unfold truncDiv
  dsimp only
  split
  · rw [Int.natAbs_neg, Int.natAbs_natCast]
  · rw [Int.natAbs_natCast]

/-- The sign of the quotient: it is negative where the signs are opposite and it is not 0. -/
theorem truncDiv_neg_iff (a b : Int) (hb : b ≠ 0) :
    truncDiv a b < 0 ↔ b.natAbs ≤ a.natAbs ∧ (a < 0 ∧ 0 < b ∨ 0 < a ∧ b < 0) := by
  have hpos : 0 < a.natAbs / b.natAbs ↔ b.natAbs ≤ a.natAbs := Nat.div_pos_iff.trans (by omega)
  rw [← hpos]
  unfold truncDiv
  dsimp only
  generalize a.natAbs / b.natAbs = q
  split <;> omega

/-- A word that is not 0 is not 0 when read as signed. -/
theorem toInt_ne_zero {w : Word} (h : w ≠ 0) : w.toInt ≠ 0 :=
  fun h0 => h (BitVec.eq_of_toInt_eq h0)

/-- Settles O23: the quotient is `truncDiv`, whose magnitude and sign are the rule's. -/
theorem divTruncatesTowardZero : Obligations.DivTruncatesTowardZero := by
  unfold Obligations.DivTruncatesTowardZero
  intro rd ra rb s hb
  obtain ⟨hreg, hframe⟩ := s.writeResult_effect rd (truncDiv (s.reg ra).toInt (s.reg rb).toInt)
  exact ⟨_, execDiv_of_ne_zero rd ra rb s hb,
    ⟨_, natAbs_truncDiv _ _, truncDiv_neg_iff _ _ (toInt_ne_zero hb), hreg⟩, hframe⟩

/-- Settles O24, by the equation of `div` with a zero divisor. -/
theorem divByZeroEndsRun : Obligations.DivByZeroEndsRun := by
  unfold Obligations.DivByZeroEndsRun
  intro rd ra rb s hb
  exact ⟨_, execDiv_of_zero rd ra rb s hb, s.raise_faultedWith (.divByZero s.pc (render (.div rd ra rb)))⟩

theorem truncDiv_self (a : Int) (ha : a ≠ 0) : truncDiv a a = 1 := by
  have hq : a.natAbs / a.natAbs = 1 := Nat.div_self (Int.natAbs_pos.mpr ha)
  unfold truncDiv
  rw [if_neg (by omega), hq]
  rfl

/-- Settles O25: doubling, a difference of equals and a quotient of equals. -/
theorem sameRegisterForms : Obligations.SameRegisterForms := by
  unfold Obligations.SameRegisterForms
  intro r s
  refine ⟨⟨_, rfl, ?_⟩, ⟨_, rfl, ?_⟩, fun hr => ⟨_, execDiv_of_ne_zero r r r s hr, ?_⟩⟩
  · rw [reg_of_exec_add rfl, ← BitVec.two_mul]; rfl
  · rw [reg_of_exec_sub rfl, BitVec.sub_self]; rfl
  · rw [State.reg_writeResult_self, truncDiv_self _ (toInt_ne_zero hr)]
    rfl

end Sys2Proof.Machine
end

section
/-! Texts (rules R100 to R104, R142) and the instructions that print them (rules R140, R141). -/

namespace Sys2Proof.Machine

/-- Settles O12: both sides of each row are the same characters. -/
theorem disassemblyGrammar : Obligations.DisassemblyGrammar := by
  unfold Obligations.DisassemblyGrammar
  intro d a b s t imm ins
  simp only [← String.toList_inj]
  simp [render, renderRRR, regName, decSigned]

/-- Frame of a line appended to the trace before the pc advances. -/
theorem State.emit_advance_frame (s : State) (l : Line) :
    SameRegs s (s.emit l).advance ∧ SameSlots s (s.emit l).advance ∧
      (s.emit l).advance.status = s.status ∧ (s.emit l).advance.pc = s.pc + 1 :=
  ⟨fun r => by rw [State.advance_reg, State.emit_reg], fun a => by rw [State.advance_slot, State.emit_slot], rfl, rfl⟩

/-- Settles O26: the line is that of `emitPrevSlot`, and its frame is `emit_advance_frame`. -/
theorem printEmitsPrecedingSlot : Obligations.PrintEmitsPrecedingSlot := by
  unfold Obligations.PrintEmitsPrecedingSlot
  intro s
  exact ⟨s.emitPrevSlot.advance, rfl, rfl, s.emit_advance_frame _⟩

/-- What stands before each value of the register dump. -/
theorem regDump_labels : (List.finRange 16).map (fun i => "r" ++ dec (i.val : Int) ++ ": ") =
    ["r0: ", "r1: ", "r2: ", "r3: ", "r4: ", "r5: ", "r6: ", "r7: ", "r8: ", "r9: ", "r10: ", "r11: ", "r12: ", "r13: ",
      "r14: ", "r15: "] := by
  decide +kernel

theorem regDump_eq_zipWith (regs : Vector Word 16) : regDump regs = regDumpSeparator.intercalate
    (List.zipWith (· ++ ·) ((List.finRange 16).map fun i => "r" ++ dec (i.val : Int) ++ ": ")
      ((List.finRange 16).map fun i => decSigned regs[i])) := by
  rw [List.zipWith_map, List.zipWith_self]
  rfl

/-- The registers' values in ascending order. -/
theorem finRange_map_decSigned (s : State) : (List.finRange 16).map (fun i => decSigned s.regs[i]) =
    [0, 1, 2, 3, 4, 5, 6, 7, 8, 9, 10, 11, 12, 13, 14, 15].map fun r : Reg => dec (s.reg r).toInt := rfl

/-- Settles O27: the second line is the labels with the values, separated. -/
theorem printrEmitsSlotAndRegisters : Obligations.PrintrEmitsSlotAndRegisters := by
  unfold Obligations.PrintrEmitsSlotAndRegisters
  intro s
  refine ⟨(s.emitPrevSlot.emit (regDump s.regs)).advance, rfl, ?_, s.emitPrevSlot.emit_advance_frame _⟩
  rw [State.advance_trace, State.emit_trace, State.emitPrevSlot_trace, List.append_assoc, State.prevSlot_eq]
  simp only [List.cons_append, List.nil_append, List.append_cancel_left_eq, List.cons.injEq, and_true, true_and]
  rw [regDump_eq_zipWith, regDump_labels, finRange_map_decSigned, ← String.toList_inj]
  simp [regDumpSeparator]

/-! ### Decimal text (rule R102, decision D11) -/

theorem toDigits_head?_zero (n : Nat) (h : (Nat.toDigits 10 n).head? = some '0') : n = 0 := by
  induction n using Nat.strongRecOn with
  | ind n ih =>
    rw [Nat.toDigits_eq_if (by omega)] at h
    split at h
    next => simpa using h
    next hn =>
      rw [List.head?_append_of_ne_nil _ Nat.toDigits_ne_nil] at h
      have hdiv := ih (n / 10) (by omega) h
      omega

theorem dec_toList (n : Int) : (dec n).toList = (if n < 0 then ['-'] else []) ++ Nat.toDigits 10 n.natAbs := by
  unfold dec
  split
  · rw [String.toList_append, Nat.toList_repr]; rfl
  · rw [Nat.toList_repr]; rfl

/-- Settles O28: the digits are those of the magnitude, and a leading 0 is that of the number 0. -/
theorem decimalTextReadsBack : Obligations.DecimalTextReadsBack := by
  unfold Obligations.DecimalTextReadsBack
  intro n
  refine ⟨Nat.toDigits 10 n.natAbs, dec_toList n, Nat.toDigits_ne_nil, fun c hc => ?_, fun h => ?_,
    Nat.ofDigitChars_ten_toDigits⟩
  · exact Nat.isDigit_of_mem_toDigits (by omega) (by omega) hc
  · have h0 : n = 0 := Int.natAbs_eq_zero.mp (toDigits_head?_zero _ h)
    exact ⟨h0, by rw [h0]; exact Nat.toDigits_zero 10⟩

end Sys2Proof.Machine
end

section
/-! The memory instructions (rules R150 to R152): one slot moved, or a fault. -/

namespace Sys2Proof.Machine

/-- The effect of storing one slot and going on to the next one. -/
theorem State.setSlot_advance_effect (s : State) (hm : s.mem.wf = true) (a : Nat) (i : Instr) :
    (s.setSlot a i).advance.slot a = i ∧ SameSlotsBut a s (s.setSlot a i).advance ∧
      SameRegs s (s.setSlot a i).advance ∧ SameOutput s (s.setSlot a i).advance ∧
      (s.setSlot a i).advance.pc = s.pc + 1 := by
  have hslot : (s.setSlot a i).advance.slot a = i := by
    rw [State.advance_slot, State.slot_setSlot s hm, if_pos rfl]
  have hothers : SameSlotsBut a s (s.setSlot a i).advance := by
    intro b hb
    rw [State.advance_slot, State.slot_setSlot s hm, if_neg hb]
  have hregs : SameRegs s (s.setSlot a i).advance := fun r => by rw [State.advance_reg, State.setSlot_reg]
  have hout : SameOutput s (s.setSlot a i).advance := ⟨State.advance_trace _, State.advance_status _⟩
  exact ⟨hslot, hothers, hregs, hout, State.advance_pc _⟩

/-- Settles O29, by `setSlot_advance_effect` for the source's instruction. -/
theorem copyMovesOneSlot : Obligations.CopyMovesOneSlot := by
  unfold Obligations.CopyMovesOneSlot
  intro rd rs s hm hs hd
  exact ⟨_, execCopy_of_in rd rs s hs hd, s.setSlot_advance_effect hm _ _⟩

/-- Settles O32, by `setSlot_advance_effect` for the literal. -/
theorem writeStoresLiteral : Obligations.WriteStoresLiteral := by
  unfold Obligations.WriteStoresLiteral
  intro rd ins s hm hd
  exact ⟨_, execWrite_of_in rd ins s hd, s.setSlot_advance_effect hm _ _⟩

/-- Settles O33, by the equation of `write` out of bounds. -/
theorem writeOutOfBoundsEndsRun : Obligations.WriteOutOfBoundsEndsRun := by
  unfold Obligations.WriteOutOfBoundsEndsRun
  intro rd ins s hd
  rw [← message_writeOutOfBounds]
  exact ⟨_, execWrite_of_out rd ins s hd, s.raise_faultedWith _⟩

/-- Settles O30: the source out of bounds, else the destination. -/
theorem copyOutOfBoundsEndsRun : Obligations.CopyOutOfBoundsEndsRun := by
  unfold Obligations.CopyOutOfBoundsEndsRun
  intro rd rs s
  rw [← message_copyFromOutOfBounds, ← message_copyToOutOfBounds]
  rcases Nat.lt_or_ge (s.reg rs).toNat 1024 with hs | hs
  · rcases Nat.lt_or_ge (s.reg rd).toNat 1024 with hd | hd
    · exact ⟨_, execCopy_of_in rd rs s hs hd, fun h => absurd h (Nat.not_le.mpr hs),
        fun _ h => absurd h (Nat.not_le.mpr hd)⟩
    · exact ⟨_, execCopy_of_dst_out rd rs s hs hd, fun h => absurd h (Nat.not_le.mpr hs),
        fun _ _ => s.raise_faultedWith _⟩
  · exact ⟨_, execCopy_of_src_out rd rs s hs, fun _ => s.raise_faultedWith _, fun h => absurd hs (Nat.not_le.mpr h)⟩

/-- Settles O31: in canonical form, a slot written with what it holds is the same memory. -/
theorem copyOntoItselfKeepsMemory : Obligations.CopyOntoItselfKeepsMemory := by
  unfold Obligations.CopyOntoItselfKeepsMemory
  intro rd rs s hm heq hs
  have hmem : s.mem.write (s.reg rd).toNat (s.mem.read (s.reg rs).toNat) = s.mem := by
    rw [← heq, Memory.write_read_self s.mem hm _ hs]
  have hself : s.setSlot (s.reg rd).toNat (s.slot (s.reg rs).toNat) = s := by
    rw [State.setSlot, State.slot, hmem]
  refine (execCopy_of_in rd rs s hs (heq ▸ hs)).trans ?_
  rw [hself]
  rfl

/-! ### The frame of every instruction on memory -/

/-- A slot that a store changed is the one stored to. -/
theorem State.eq_of_setSlot_advance_ne {s : State} (hm : s.mem.wf = true) {a b : Nat} {i : Instr}
    (hne : (s.setSlot b i).advance.slot a ≠ s.slot a) : a = b ∧ (s.setSlot b i).advance.slot a = i := by
  obtain ⟨hslot, hothers, -⟩ := s.setSlot_advance_effect hm b i
  have hab : a = b := by
    by_contra hab
    exact hne (hothers a hab)
  exact ⟨hab, hab ▸ hslot⟩

/-- Settles O44: `copy` and `write` in bounds store one slot, and every other way an instruction ends keeps all slots. -/
theorem memoryWrittenOnlyBy : Obligations.MemoryWrittenOnlyBy := by
  unfold Obligations.MemoryWrittenOnlyBy
  intro i s t a hm h hne
  cases i with
  | nop | mov | add | sub | mul | print | printr | j | rj | halt => cases h; exact absurd rfl hne
  | beq | bne => cases h; exact absurd (State.branch_slot ..) hne
  | div rd ra rb =>
    by_cases h0 : s.reg rb = 0
    · cases (execDiv_of_zero rd ra rb s h0).symm.trans h
      exact absurd (s.raise_slot ..) hne
    · cases (execDiv_of_ne_zero rd ra rb s h0).symm.trans h
      exact absurd (s.writeResult_slot ..) hne
  | copy rd rs =>
    rcases Nat.lt_or_ge (s.reg rs).toNat 1024 with hs | hs
    · rcases Nat.lt_or_ge (s.reg rd).toNat 1024 with hd | hd
      · cases (execCopy_of_in rd rs s hs hd).symm.trans h
        exact Or.inl ⟨rd, rs, rfl, State.eq_of_setSlot_advance_ne hm hne⟩
      · cases (execCopy_of_dst_out rd rs s hs hd).symm.trans h
        exact absurd (s.raise_slot ..) hne
    · cases (execCopy_of_src_out rd rs s hs).symm.trans h
      exact absurd (s.raise_slot ..) hne
  | write rd ins =>
    rcases Nat.lt_or_ge (s.reg rd).toNat 1024 with hd | hd
    · cases (execWrite_of_in rd ins s hd).symm.trans h
      exact Or.inr ⟨rd, ins, rfl, State.eq_of_setSlot_advance_ne hm hne⟩
    · cases (execWrite_of_out rd ins s hd).symm.trans h
      exact absurd (s.raise_slot ..) hne

/-! ### Nesting depth (rule R75) -/

/-- Canonical memory in which no slot is nested deeper than `d`. -/
structure State.NestedUpTo (d : Nat) (s : State) : Prop where
  mem_wf : s.mem.wf = true
  depth_le : ∀ a, nestingDepth (s.slot a) ≤ d

theorem State.NestedUpTo.of_mem_eq {d : Nat} {s t : State} (h : s.NestedUpTo d) (hmem : t.mem = s.mem) :
    t.NestedUpTo d where
  mem_wf := hmem ▸ h.mem_wf
  depth_le a := by
    rw [State.slot, hmem]
    exact h.depth_le a

theorem exec_mem_wf {i : Instr} {s t : State} (h : exec i s = .next t) (hm : s.mem.wf = true) : t.mem.wf = true := by
  cases exec_inversion h with
  | faulted f => rwa [State.raise_mem]
  | halted => rwa [State.haltNormally_mem]
  | wentOn _ _ _ _ _ hwf => exact hwf hm

/-- An instruction held in memory stores one that memory holds already, or its own literal, which is nested less. -/
theorem State.NestedUpTo.exec {d : Nat} {i : Instr} {s t : State} (h : s.NestedUpTo d) (hi : nestingDepth i ≤ d)
    (hx : exec i s = .next t) : t.NestedUpTo d where
  mem_wf := exec_mem_wf hx h.mem_wf
  depth_le a := by
    by_cases hslot : t.slot a = s.slot a
    · rw [hslot]
      exact h.depth_le a
    · rcases memoryWrittenOnlyBy i s t a h.mem_wf hx hslot with ⟨rd, rs, -, -, hval⟩ | ⟨rd, ins, rfl, -, hval⟩
      · rw [hval]
        exact h.depth_le _
      · rw [hval]
        rw [nestingDepth] at hi
        omega

theorem State.NestedUpTo.step {d : Nat} {s t : State} (h : s.NestedUpTo d) (hstep : step s = .next t) :
    t.NestedUpTo d := by
  cases step_inversion hstep with
  | guardFault => exact h.of_mem_eq (s.raise_mem _)
  | executed _ _ u hx => exact (h.exec (h.depth_le _) hx).of_mem_eq u.endOfRun_mem

theorem State.abort_mem (s : State) : s.abort.mem = s.mem := by
  unfold State.abort
  split <;> rfl

/-- Settles O56, by induction over the run: the bound is kept by every step and by ABORT. -/
theorem nestingDepthNeverGrows : Obligations.NestingDepthNeverGrows := by
  unfold Obligations.NestingDepthNeverGrows
  intro s t d hm hreach hd
  have ht : t.NestedUpTo d := hreach.induct ⟨hm, hd⟩ (fun _ _ hu hstep => hu.step hstep)
    (fun u hu => hu.of_mem_eq u.abort_mem)
  exact ht.depth_le

end Sys2Proof.Machine
end

section
/-! STATUS and the trace are never read (rules R31, R36). -/

namespace Sys2Proof.Machine

/-- The two answers have the same registers, pc and memory, and the same lines are appended to the two traces. -/
def SameEffect (s s' t t' : State) : Prop :=
  t'.regs = t.regs ∧ t'.pc = t.pc ∧ t'.mem = t.mem ∧ ∃ lines, t.trace = s.trace ++ lines ∧ t'.trace = s'.trace ++ lines

theorem SameEffect.quiet {s s' t t' : State} (hregs : t'.regs = t.regs) (hpc : t'.pc = t.pc) (hmem : t'.mem = t.mem)
    (ht : t.trace = s.trace) (ht' : t'.trace = s'.trace) : SameEffect s s' t t' :=
  ⟨hregs, hpc, hmem, [], by rw [ht, List.append_nil], by rw [ht', List.append_nil]⟩

/-- A state with another trace and STATUS; its registers, pc and memory are the same. -/
def State.withOutput (s : State) (trace : List Line) (status : Status) : State :=
  { s with trace := trace, status := status }

theorem exists_eq_withOutput {s s' : State} (hregs : s'.regs = s.regs) (hpc : s'.pc = s.pc) (hmem : s'.mem = s.mem) :
    ∃ trace status, s' = s.withOutput trace status :=
  ⟨s'.trace, s'.status, by rw [State.withOutput, ← hregs, ← hpc, ← hmem]⟩

theorem SameEffect.raise (s : State) (trace : List Line) (status : Status) (f : RuntimeFault) :
    SameEffect s (s.withOutput trace status) (s.raise f) ((s.withOutput trace status).raise f) :=
  ⟨rfl, rfl, rfl, [f.message], rfl, rfl⟩

theorem SameEffect.branch (s : State) (trace : List Line) (status : Status) (taken : Bool) (rt : Reg) :
    SameEffect s (s.withOutput trace status) (s.branch taken rt) ((s.withOutput trace status).branch taken rt) := by
  cases taken <;> exact .quiet rfl rfl rfl rfl rfl

/-- Settles O45, instruction by instruction: the three that can fault take the same side of their check in both states,
because it looks at registers only. -/
theorem statusAndTraceNeverRead : Obligations.StatusAndTraceNeverRead := by
  unfold Obligations.StatusAndTraceNeverRead
  intro i s s' t t' hregs hpc hmem h h'
  obtain ⟨trace, status, rfl⟩ := exists_eq_withOutput hregs hpc hmem
  change SameEffect s (s.withOutput trace status) t t'
  cases i with
  | nop | mov | add | sub | mul | j | rj | halt => cases h; cases h'; exact .quiet rfl rfl rfl rfl rfl
  | beq | bne => cases h; cases h'; exact .branch s trace status _ _
  | print => cases h; cases h'; exact ⟨rfl, rfl, rfl, [_], rfl, rfl⟩
  | printr =>
    cases h; cases h'
    exact ⟨rfl, rfl, rfl, [_, _], List.append_assoc s.trace [_] [_], List.append_assoc trace [_] [_]⟩
  | div rd ra rb =>
    by_cases h0 : s.reg rb = 0
    · cases (execDiv_of_zero rd ra rb s h0).symm.trans h
      cases (execDiv_of_zero rd ra rb (s.withOutput trace status) h0).symm.trans h'
      exact .raise s trace status _
    · cases (execDiv_of_ne_zero rd ra rb s h0).symm.trans h
      cases (execDiv_of_ne_zero rd ra rb (s.withOutput trace status) h0).symm.trans h'
      exact .quiet rfl rfl rfl rfl rfl
  | copy rd rs =>
    rcases Nat.lt_or_ge (s.reg rs).toNat 1024 with hs | hs
    · rcases Nat.lt_or_ge (s.reg rd).toNat 1024 with hd | hd
      · cases (execCopy_of_in rd rs s hs hd).symm.trans h
        cases (execCopy_of_in rd rs (s.withOutput trace status) hs hd).symm.trans h'
        exact .quiet rfl rfl rfl rfl rfl
      · cases (execCopy_of_dst_out rd rs s hs hd).symm.trans h
        cases (execCopy_of_dst_out rd rs (s.withOutput trace status) hs hd).symm.trans h'
        exact .raise s trace status _
    · cases (execCopy_of_src_out rd rs s hs).symm.trans h
      cases (execCopy_of_src_out rd rs (s.withOutput trace status) hs).symm.trans h'
      exact .raise s trace status _
  | write rd ins =>
    rcases Nat.lt_or_ge (s.reg rd).toNat 1024 with hd | hd
    · cases (execWrite_of_in rd ins s hd).symm.trans h
      cases (execWrite_of_in rd ins (s.withOutput trace status) hd).symm.trans h'
      exact .quiet rfl rfl rfl rfl rfl
    · cases (execWrite_of_out rd ins s hd).symm.trans h
      cases (execWrite_of_out rd ins (s.withOutput trace status) hd).symm.trans h'
      exact .raise s trace status _

end Sys2Proof.Machine
end

section
/-! Jumps and `halt` (rules R162 to R164). -/

namespace Sys2Proof.Machine

/-- Frame of a pc update: nothing but the pc moves. -/
theorem State.setPc_frame (s : State) (v : Word) :
    SameRegs s (s.setPc v) ∧ SameSlots s (s.setPc v) ∧ SameOutput s (s.setPc v) :=
  ⟨s.setPc_reg v, s.setPc_slot v, s.setPc_trace v, s.setPc_status v⟩

/-- Settles O36: the target is read before the link is written. -/
theorem jumpLinksReturnAddress : Obligations.JumpLinksReturnAddress := by
  unfold Obligations.JumpLinksReturnAddress
  intro rt s
  have hlink : ((s.setReg Config.linkReg s.nextPc).setPc (s.targetOperand rt)).reg 15 = s.pc + 1 := by
    rw [State.setPc_reg, State.reg_setReg, if_pos rfl, State.nextPc_eq]
  have hothers : SameRegsBut 15 s ((s.setReg Config.linkReg s.nextPc).setPc (s.targetOperand rt)) := by
    intro r hr
    rw [State.setPc_reg, State.reg_setReg, if_neg hr]
  exact ⟨_, rfl, rfl, hlink, hothers, fun _ => rfl, rfl, rfl⟩

/-- The answer of `rj`. -/
theorem execRj_eq (rt : Reg) (s : State) :
    execRj rt s = .next (s.setPc (wrap64 ((s.pc.toNat : Int) + (s.reg rt).toInt))) := rfl

/-- Settles O37: the sum is narrowed by `wrap64`. -/
theorem relativeJumpAddsOffset : Obligations.RelativeJumpAddsOffset := by
  unfold Obligations.RelativeJumpAddsOffset
  intro rt s
  exact ⟨_, execRj_eq rt s, wrap64_toNat _, s.setPc_frame _⟩

/-- Settles O38: from a pc in bounds no 64-bit offset reaches round to the slots again. -/
theorem relativeJumpInBoundsIffSumIs : Obligations.RelativeJumpInBoundsIffSumIs := by
  unfold Obligations.RelativeJumpInBoundsIffSumIs
  intro rt s hpc
  refine ⟨_, execRj_eq rt s, ?_⟩
  have hsum := wrap64_toNat ((s.pc.toNat : Int) + (s.reg rt).toInt)
  have hlow : -2 ^ 63 ≤ (s.reg rt).toInt := BitVec.le_toInt _
  have hhigh : (s.reg rt).toInt < 2 ^ 63 := BitVec.toInt_lt
  rw [State.setPc_pc]
  omega

/-- Settles O39, by the fields of `haltNormally`. -/
theorem haltEndsNormally : Obligations.HaltEndsNormally := by
  unfold Obligations.HaltEndsNormally
  intro s
  exact ⟨s.haltNormally, rfl, s.haltNormally_status, rfl, s.haltNormally_pc, s.haltNormally_reg, s.haltNormally_slot,
    s.haltNormally_trace⟩

end Sys2Proof.Machine
end

section
/-! The execution cycle (rules R46 to R48, R188): which instruction a step executes, and what the end of the run adds. -/

namespace Sys2Proof.Machine

/-- The end-of-run part, as a condition on STATUS and the trace (rule R188, decision D15). -/
theorem State.endOfRun_eq (s : State) :
    s.endOfRun = if s.status ≠ .running ∧ s.trace = [] then { s with trace := ["no output"] } else s := by
  split
  next h => rw [State.endOfRun_of_silent s h.1 h.2, State.emit, h.2]; rfl
  next h =>
    unfold State.endOfRun
    rw [if_neg (by simpa using h)]

theorem State.trace_endOfRun_of_halted {s : State} (h : s.status ≠ .running) :
    s.endOfRun.trace = if s.trace = [] then ["no output"] else s.trace := by
  rw [State.endOfRun_eq]
  by_cases htr : s.trace = []
  · rw [if_pos ⟨h, htr⟩, if_pos htr]
  · rw [if_neg (fun hc => htr hc.2), if_neg htr]

/-- Settles O13: every instruction has a next state, and the step is the end-of-run part of it. -/
theorem stepExecutesSlotAtPc : Obligations.StepExecutesSlotAtPc := by
  unfold Obligations.StepExecutesSlotAtPc
  intro s hr hpc
  obtain ⟨u, hu, -⟩ := exec_outcome (s.slot s.pc.toNat) s
  refine ⟨u, hu, ?_⟩
  rw [step_of_exec s hr hpc hu, State.endOfRun_eq]

theorem State.withFetchWord_of_decode {s : State} {nbits w : Nat} {i : Instr} (h : decodeTableWord nbits w = some i)
    (hpc : s.pc.toNat < 1024) : s.withFetchWord nbits w = s.setSlot s.pc.toNat i := by
  unfold State.withFetchWord State.placeAtPc
  rw [h]
  exact if_pos ((inBounds_eq_true _).mpr hpc)

/-- Settles O14: the slot at the pc holds the instruction placed there. -/
theorem stepExecutesDecodedWord : Obligations.StepExecutesDecodedWord := by
  unfold Obligations.StepExecutesDecodedWord
  intro s nbits w i hr hpc hm hdec
  rw [State.withFetchWord_of_decode hdec hpc]
  obtain ⟨u, hu, hstep⟩ := stepExecutesSlotAtPc (s.setSlot s.pc.toNat i) hr hpc
  have hslot : (s.setSlot s.pc.toNat i).mem.read (s.setSlot s.pc.toNat i).pc.toNat = i := by
    refine (s.slot_setSlot hm _ _ i).trans (if_pos ?_)
    rw [State.setSlot_pc]
  rw [hslot] at hu
  exact ⟨u, hu, hstep⟩

/-- Settles O40: the step is `halt` and the end-of-run part. -/
theorem haltStepLeavesSentinel : Obligations.HaltStepLeavesSentinel := by
  unfold Obligations.HaltStepLeavesSentinel
  intro s hr hpc hslot
  have hexec : exec (s.slot s.pc.toNat) s = .next s.haltNormally := by rw [hslot]; rfl
  have hhalted : s.haltNormally.status ≠ .running := by simp
  refine ⟨_, step_of_exec s hr hpc hexec, ?_, State.trace_endOfRun_of_halted hhalted, ?_, fun r => ?_, fun a => ?_⟩
  · rw [State.endOfRun_status, State.haltNormally_status]
  · rw [State.endOfRun_pc, State.haltNormally_pc]
  · rw [State.endOfRun_reg, State.haltNormally_reg]
  · rw [State.endOfRun_slot, State.haltNormally_slot]

/-- A step of a Running engine that executes `i` and stays Running. -/
theorem step_of_slot_running {s u : State} {i : Instr} (hr : s.status = .running) (hpc : s.pc.toNat < 1024)
    (hslot : s.slot s.pc.toNat = i) (hu : exec i s = .next u) (hout : SameOutput s u) : step s = .next u :=
  step_of_exec_running s hr hpc (hslot ▸ hu) (hout.2.trans hr)

end Sys2Proof.Machine
end

section
/-! Control transfer over more than one step (rules R159 to R165). -/

namespace Sys2Proof.Machine

/-- A control transfer that is taken sets the pc to its target, in bounds or not (rule R159). -/
theorem exec_of_takenTarget {s : State} {i : Instr} {v : Word} (h : takenTarget s i = some v) :
    ∃ t, exec i s = .next t ∧ t.pc = v ∧ SameSlots s t ∧ SameOutput s t := by
  cases i with
  | beq ra rb rt =>
    obtain ⟨t, ht, hpc, -, -, hslots, hout⟩ := beqBranchesOnEqual ra rb rt s
    simp only [takenTarget, Option.ite_none_right_eq_some, Option.some.injEq] at h
    exact ⟨t, ht, (hpc h.1).trans h.2, hslots, hout⟩
  | bne ra rb rt =>
    obtain ⟨t, ht, hpc, -, -, hslots, hout⟩ := bneBranchesOnDifferent ra rb rt s
    simp only [takenTarget, Option.ite_none_right_eq_some, Option.some.injEq] at h
    exact ⟨t, ht, (hpc h.1).trans h.2, hslots, hout⟩
  | j rt =>
    obtain ⟨t, ht, hpc, -, -, hslots, hout⟩ := jumpLinksReturnAddress rt s
    cases h
    exact ⟨t, ht, hpc, hslots, hout⟩
  | rj rt =>
    obtain ⟨-, hslots, hout⟩ := s.setPc_frame (wrap64 ((s.pc.toNat : Int) + (s.reg rt).toInt))
    cases h
    exact ⟨_, execRj_eq rt s, wrap64_add_offset s.pc (s.reg rt), hslots, hout⟩
  | nop | mov | add | sub | mul | div | print | printr | copy | write | halt => cases h

/-- Settles O41: the step after the transfer fetches at the target, or its guard faults there. -/
theorem targetCheckedAtNextFetch : Obligations.TargetCheckedAtNextFetch := by
  unfold Obligations.TargetCheckedAtNextFetch
  intro s v hr hpc htaken
  obtain ⟨t, ht, rfl, hslots, hout⟩ := exec_of_takenTarget htaken
  have htr : t.status = .running := hout.2.trans hr
  refine ⟨t, step_of_slot_running hr hpc rfl ht hout, rfl, hslots, hout, fun hin => ?_, fun hout => ?_⟩
  · obtain ⟨u, hu, -⟩ := exec_outcome (s.slot t.pc.toNat) t
    exact ⟨u, hu, step_of_exec t htr hin (by rw [hslots]; exact hu)⟩
  · exact fetchGuardEndsRun t htr hout

/-- A step that executes `j`. -/
theorem step_of_jump {s : State} {rt : Reg} (hr : s.status = .running) (hpc : s.pc.toNat < 1024)
    (hslot : s.slot s.pc.toNat = .j rt) : ∃ t, step s = .next t ∧ t.pc = s.reg rt ∧ t.reg 15 = s.pc + 1 ∧
      SameRegsBut 15 s t ∧ SameSlots s t ∧ SameOutput s t := by
  obtain ⟨t, ht, htpc, hlink, hregs, hslots, hout⟩ := jumpLinksReturnAddress rt s
  exact ⟨t, step_of_slot_running hr hpc hslot ht hout, htpc, hlink, hregs, hslots, hout⟩

/-- A step that takes a conditional branch through `rt`. -/
theorem step_of_taken_branch {s : State} {ra rb rt : Reg} (hr : s.status = .running) (hpc : s.pc.toNat < 1024)
    (hslot : s.slot s.pc.toNat = .beq ra rb rt ∧ s.reg ra = s.reg rb ∨
      s.slot s.pc.toNat = .bne ra rb rt ∧ s.reg ra ≠ s.reg rb) :
    ∃ t, step s = .next t ∧ t.pc = s.reg rt ∧ SameRegs s t ∧ SameSlots s t ∧ SameOutput s t := by
  rcases hslot with ⟨hslot, heq⟩ | ⟨hslot, hne⟩
  · obtain ⟨t, ht, htpc, -, hregs, hslots, hout⟩ := beqBranchesOnEqual ra rb rt s
    exact ⟨t, step_of_slot_running hr hpc hslot ht hout, htpc heq, hregs, hslots, hout⟩
  · obtain ⟨t, ht, htpc, -, hregs, hslots, hout⟩ := bneBranchesOnDifferent ra rb rt s
    exact ⟨t, step_of_slot_running hr hpc hslot ht hout, htpc hne, hregs, hslots, hout⟩

/-- Settles O42: the call is a `j`, and each return goes to what r15 holds. -/
theorem callAndReturn : Obligations.CallAndReturn := by
  unfold Obligations.CallAndReturn
  intro s rt hr hpc hslot
  obtain ⟨t, ht, htpc, hlink, hregs, hslots, hout⟩ := step_of_jump hr hpc hslot
  refine ⟨t, ht, htpc, hlink, hregs, hslots, hout, fun u hur hupc hret => ⟨fun ra rb hbranch => ?_, fun hj => ?_⟩⟩
  · obtain ⟨v, hv, hvpc, hvregs, hvslots, hvout⟩ := step_of_taken_branch hur hupc hbranch
    exact ⟨v, hv, hvpc.trans hret, (hvregs 15).trans hret, hvregs, hvslots, hvout⟩
  · obtain ⟨v, hv, hvpc, hvlink, hvregs, hvslots, hvout⟩ := step_of_jump hur hupc hj
    exact ⟨v, hv, hvpc.trans hret, hvlink, hvregs, hvslots, hvout⟩

end Sys2Proof.Machine
end

section
/-! Self-modifying code (rules R73, R220, R221). -/

namespace Sys2Proof.Machine

/-- The step of a `write` or a `copy` in bounds that stores `ins` (rules R150, R151). -/
theorem step_of_store {s : State} {rd : Reg} {ins : Instr} (hr : s.status = .running) (hpc : s.pc.toNat < 1024)
    (hm : s.mem.wf = true) (hd : (s.reg rd).toNat < 1024)
    (hslot : s.slot s.pc.toNat = .write rd ins ∨
      ∃ rs, s.slot s.pc.toNat = .copy rd rs ∧ (s.reg rs).toNat < 1024 ∧ s.slot (s.reg rs).toNat = ins) :
    ∃ t, step s = .next t ∧ t.slot (s.reg rd).toNat = ins ∧ SameSlotsBut (s.reg rd).toNat s t ∧ SameRegs s t ∧
      SameOutput s t ∧ t.pc = s.pc + 1 := by
  rcases hslot with hslot | ⟨rs, hslot, hs, rfl⟩
  · obtain ⟨t, ht, hval, hothers, hregs, hout, htpc⟩ := writeStoresLiteral rd ins s hm hd
    exact ⟨t, step_of_slot_running hr hpc hslot ht hout, hval, hothers, hregs, hout, htpc⟩
  · obtain ⟨t, ht, hval, hothers, hregs, hout, htpc⟩ := copyMovesOneSlot rd rs s hm hs hd
    exact ⟨t, step_of_slot_running hr hpc hslot ht hout, hval, hothers, hregs, hout, htpc⟩

theorem toNat_pc_add_one {v : Word} (h : v.toNat < 1024) : (v + 1).toNat = v.toNat + 1 := by
  have hone : (1 : Word).toNat = 1 := rfl
  rw [BitVec.toNat_add, hone]
  omega

/-- Settles O49: the slot just stored is the one at the next pc. -/
theorem nextStepExecutesWrittenSlot : Obligations.NextStepExecutesWrittenSlot := by
  unfold Obligations.NextStepExecutesWrittenSlot
  intro s rd ins hr hpc hm hd hslot
  obtain ⟨t, ht, hval, -, -, hout, htpc⟩ := step_of_store hr (by omega) hm (by omega) hslot
  have hnext : t.pc.toNat = s.pc.toNat + 1 := by rw [htpc, toNat_pc_add_one (by omega)]
  have htr : t.status = .running := hout.2.trans hr
  obtain ⟨u, hu, -⟩ := exec_outcome ins t
  refine ⟨t, u, ht, htr, htpc, hu, step_of_exec t htr (by omega) ?_⟩
  rw [hnext, ← hd, hval]
  exact hu

/-- A step that executes `print` in the slot after slot `a`. -/
theorem step_of_print {s : State} {a : Nat} (hr : s.status = .running) (hpc : s.pc.toNat = a + 1) (ha : a < 1023)
    (hslot : s.slot (a + 1) = .print) :
    ∃ u, step s = .next u ∧ u.trace = s.trace ++ [render (s.slot a)] := by
  obtain ⟨u, hu, htr, -, -, hst, -⟩ := printEmitsPrecedingSlot s
  have hprev : (s.pc.toNat + 1023) % 1024 = a := by omega
  rw [hprev] at htr
  rw [← hpc] at hslot
  exact ⟨u, step_of_exec_running s hr (by omega) (hslot ▸ hu) (hst.trans hr), htr⟩

/-- Settles O50: the store completes, and the slot before the `print` is the one it stored. -/
theorem writeOntoOwnSlot : Obligations.WriteOntoOwnSlot := by
  unfold Obligations.WriteOntoOwnSlot
  intro s rd ins hr hpc hm hd hslot
  obtain ⟨t, ht, hval, hothers, hregs, hout, htpc⟩ := step_of_store hr hpc hm (hd ▸ hpc) hslot
  rw [hd] at hval hothers
  have htr : t.status = .running := hout.2.trans hr
  refine ⟨t, ht, htr, htpc, hval, hothers, hregs, hout, fun hlast hprint => ?_⟩
  have hnext : t.pc.toNat = s.pc.toNat + 1 := by rw [htpc, toNat_pc_add_one hpc]
  have htprint : t.slot (s.pc.toNat + 1) = .print := (hothers _ (by omega)).trans hprint
  obtain ⟨u, hu, hutr⟩ := step_of_print htr hnext hlast htprint
  exact ⟨u, hu, by rw [hutr, hval, hout.1]⟩

end Sys2Proof.Machine
end

section
/-! Runs (rules R42, R52, R190, R217). -/

namespace Sys2Proof.Machine

/-- A Running engine has a step (rule R46). -/
theorem exists_step_of_running {s : State} (hr : s.status = .running) : ∃ t, step s = .next t := by
  rcases Nat.lt_or_ge s.pc.toNat 1024 with hpc | hpc
  · obtain ⟨u, -, hstep⟩ := stepExecutesSlotAtPc s hr hpc
    exact ⟨_, hstep⟩
  · exact ⟨_, step_of_outOfBounds s hr hpc⟩

theorem stepsFor_add (n k : Nat) (s : State) : stepsFor (n + k) s = stepsFor k (stepsFor n s) := by
  induction n generalizing s with
  | zero => rw [Nat.zero_add, stepsFor]
  | succ n ih =>
    by_cases hr : s.status = .running
    · obtain ⟨t, ht⟩ := exists_step_of_running hr
      rw [Nat.succ_add, stepsFor_succ_of_step s _ ht, stepsFor_succ_of_step s _ ht, ih]
    · rw [stepsFor_of_halted s _ hr, stepsFor_of_halted s _ hr, stepsFor_of_halted s _ hr]

/-- Settles O57: RUN's state is the one after its steps, and a halted state stays. -/
theorem runReturnsHaltedState : Obligations.RunReturnsHaltedState := by
  unfold Obligations.RunReturnsHaltedState
  intro s t n k h
  obtain ⟨hsteps, hhalted⟩ := (runFor_eq_some n s t).mp h
  refine ⟨hhalted, hsteps ▸ stepsTo_stepsFor n s s (.start s), (runFor_eq_some _ s t).mpr ⟨?_, hhalted⟩⟩
  rw [stepsFor_add, hsteps, stepsFor_of_halted t k hhalted]

/-- Settles O59, by induction on the number of steps: each leaves the state as it is. -/
theorem relativeJumpByZeroNeverEnds : Obligations.RelativeJumpByZeroNeverEnds := by
  unfold Obligations.RelativeJumpByZeroNeverEnds
  intro s rt hr hpc hslot hzero
  have hself : s.setPc (wrap64 ((s.pc.toNat : Int) + (s.reg rt).toInt)) = s := by
    rw [wrap64_add_offset, hzero, add_zero, State.setPc]
  have hexec : exec (.rj rt) s = .next s := (execRj_eq rt s).trans (by rw [hself])
  have hstep : step s = .next s := step_of_slot_running hr hpc hslot hexec ⟨rfl, rfl⟩
  refine ⟨hstep, fun n => ?_⟩
  induction n with
  | zero => exact runFor_zero_of_running s hr
  | succ n ih => rw [runFor_succ_of_step s n hstep, ih]

/-- A step of `nop` in bounds. -/
theorem step_of_nop {s : State} (hr : s.status = .running) (hpc : s.pc.toNat < 1024) (hslot : s.slot s.pc.toNat = .nop) :
    step s = .next s.advance :=
  step_of_slot_running hr hpc hslot rfl ⟨s.advance_trace, s.advance_status⟩

theorem message_pcOutOfBounds_1024 :
    (RuntimeFault.pcOutOfBounds 1024).message = "error: program counter out of bounds: 1024" := by
  decide +kernel

/-- From `n` slots before the end, with `nop` in all of them, RUN goes through them to the fetch guard's fault. -/
theorem runFor_nops (n : Nat) (s : State) (hr : s.status = .running) (hn : s.pc.toNat + n = 1024)
    (hnop : ∀ a, s.pc.toNat ≤ a → a < 1024 → s.slot a = .nop) :
    ∃ t, runFor (n + 1) s = some (t.raise (.pcOutOfBounds 1024)) ∧ t.pc = 1024 ∧ SameRegs s t ∧ SameSlots s t ∧
      SameOutput s t := by
  induction n generalizing s with
  | zero =>
    have hpc : s.pc = 1024 := BitVec.eq_of_toNat_eq hn
    have hstep := step_of_outOfBounds s hr (by omega)
    rw [hpc] at hstep
    refine ⟨s, ?_, hpc, fun _ => rfl, fun _ => rfl, rfl, rfl⟩
    rw [runFor_succ_of_step s 0 hstep, runFor_of_halted _ 0 (s.raise_status_ne_running _)]
  | succ n ih =>
    have hstep := step_of_nop hr (by omega) (hnop _ (Nat.le_refl _) (by omega))
    have hnext : s.advance.pc.toNat = s.pc.toNat + 1 := toNat_pc_add_one (by omega)
    obtain ⟨t, ht, hpc, hregs, hslots, hout⟩ :=
      ih s.advance hr (by omega) fun a ha hlt => hnop a (by omega) hlt
    exact ⟨t, (runFor_succ_of_step s _ hstep).trans ht, hpc, hregs, hslots, hout⟩

/-- Settles O58: the run of `runFor_nops`, whose message is the line of the statement. -/
theorem noImplicitHaltAtEndOfMemory : Obligations.NoImplicitHaltAtEndOfMemory := by
  unfold Obligations.NoImplicitHaltAtEndOfMemory
  intro s hr hpc hnop
  obtain ⟨t, ht, htpc, hregs, hslots, htr, -⟩ := runFor_nops (1024 - s.pc.toNat) s hr (by omega) hnop
  refine ⟨_, ht, htpc, hregs, hslots, ?_, ?_⟩
  · rw [State.raise_status, message_pcOutOfBounds_1024]
  · rw [State.raise_trace, message_pcOutOfBounds_1024, htr]

end Sys2Proof.Machine
end
